-- ==== Sys2Proof/Word.lean ====
section
/-! DEFINITION. The word types of CORE: a `u64` (R6), an 8-bit command code (R37), and the two shapes its
registers come in, two words (R11) and four words (R12). -/

namespace Sys2Proof

/-- A `u64` of the spec: an unsigned integer in 0 .. 2^64 - 1, bit 0 the least significant (R6). -/
abbrev Word := BitVec 64

/-- The 8-bit command code `cmd` (R37). -/
abbrev Code := BitVec 8

/-- Two 64-bit words in index order: the shape of `S128` and `ACC128` (R11, R17). -/
@[ext] structure Words2 where
  w0 : Word
  w1 : Word
deriving DecidableEq, Repr

/-- Four 64-bit words in index order: the shape of `S256` and `ACC256` (R12, R17). -/
@[ext] structure Words4 where
  w0 : Word
  w1 : Word
  w2 : Word
  w3 : Word
deriving DecidableEq, Repr

end Sys2Proof
end

