-- ==== Sys2Proof/Machine/Operands.lean ====
section
/-! DEFINITION. The operands: selecting one word of a register array by index (R25, R27, R39), the whole-array
exclusive-or of the jump engines (R49, R59), and the all-zero arrays. `wdata` is used whole, with no extension, scaling
or shifting (R39), so it needs no operation here. -/

namespace Sys2Proof.Machine

/-- Word `i` of a two-word array. -/
def word128 (r : Words2) (i : Fin 2) : Word :=
  match i with
  | 0 => r.w0
  | 1 => r.w1

/-- A two-word array with word `i` replaced. -/
def setWord128 (r : Words2) (i : Fin 2) (v : Word) : Words2 :=
  match i with
  | 0 => { r with w0 := v }
  | 1 => { r with w1 := v }

/-- Word `i` of a four-word array. -/
def word256 (r : Words4) (i : Fin 4) : Word :=
  match i with
  | 0 => r.w0
  | 1 => r.w1
  | 2 => r.w2
  | 3 => r.w3

/-- A four-word array with word `i` replaced. -/
def setWord256 (r : Words4) (i : Fin 4) (v : Word) : Words4 :=
  match i with
  | 0 => { r with w0 := v }
  | 1 => { r with w1 := v }
  | 2 => { r with w2 := v }
  | 3 => { r with w3 := v }

/-- Exclusive-or, word by word. -/
def xor128 (a b : Words2) : Words2 := { w0 := a.w0 ^^^ b.w0, w1 := a.w1 ^^^ b.w1 }

/-- Exclusive-or, word by word. -/
def xor256 (a b : Words4) : Words4 :=
  { w0 := a.w0 ^^^ b.w0, w1 := a.w1 ^^^ b.w1, w2 := a.w2 ^^^ b.w2, w3 := a.w3 ^^^ b.w3 }

/-- Both words zero. -/
def zero128 : Words2 := { w0 := 0#64, w1 := 0#64 }

/-- All four words zero. -/
def zero256 : Words4 := { w0 := 0#64, w1 := 0#64, w2 := 0#64, w3 := 0#64 }

end Sys2Proof.Machine
end

