-- ==== Sys2Proof/Config.lean ====
section
/-! DEFINITION. What is fixed for every CORE instance (the constants of R5, R15, R16) and the free values: what the
spec leaves unspecified after reset (R23). A free value is an opaque constant, so nothing can be proved of what it
is. The open parameters: `N_INSTANCES` (D15) is the argument of `Machine.System`; `IFACE_TIMING` (D19) is read by no
rule and has no counterpart. -/

namespace Sys2Proof.Config

/-- `JP128`, the jump polynomial of G128, in index order (R15). -/
def jp128 : Words2 :=
  { w0 := 0xdf900294d8f554a5#64
    w1 := 0x170865df4b3201fc#64 }

/-- `JP256`, the jump polynomial of G256, in index order (R16). -/
def jp256 : Words4 :=
  { w0 := 0x180ec6d33cfd0aba#64
    w1 := 0xd5a61266f0c9392c#64
    w2 := 0xa9582618e03fc9aa#64
    w3 := 0x39abdc4529b1661c#64 }

/-- Content of `S128[i]` after reset number `n` of an instance, before anything is written: "any value", one the model
may not choose (R23, R87). DESIGN CHOICE (log 2). -/
opaque resetS128 (n : Nat) (i : Fin 2) : Word

/-- Content of `S256[i]` after reset number `n` (R23, R87). DESIGN CHOICE (log 2). -/
opaque resetS256 (n : Nat) (i : Fin 4) : Word

/-- Content of `ACC128[i]` after reset number `n` (R23). DESIGN CHOICE (log 3). -/
opaque resetAcc128 (n : Nat) (i : Fin 2) : Word

/-- Content of `ACC256[i]` after reset number `n` (R23). DESIGN CHOICE (log 3). -/
opaque resetAcc256 (n : Nat) (i : Fin 4) : Word

/-- Content of `JC128` after reset number `n` (R23). DESIGN CHOICE (log 3). -/
opaque resetJc128 (n : Nat) : BitVec 7

/-- Content of `JC256` after reset number `n` (R23). DESIGN CHOICE (log 3). -/
opaque resetJc256 (n : Nat) : BitVec 8

end Sys2Proof.Config
end

