-- ==== Sys2Proof/Syntax.lean ====
section
/-! DEFINITION. The syntax, whole: the nine commands (R40) as `Instr`, a command as it stands at the port (R37), what
the caller may present (R96), the classes of reserved codes (R41), the rows of the opcode table, and the assembler's
lines and pseudo-instructions (R44, R45). -/

namespace Sys2Proof

/-- The nine commands of R40, one constructor per row of the opcode table. An index is the field `idx` as it stands
(R39), so it is always in range (R27); `v` is `wdata`, present only where the command takes it. -/
inductive Instr where
  /-- NEXT128 (R48). -/
  | next128
  /-- JUMP128 (R50). -/
  | jump128
  /-- LDS128 i, v (R52). -/
  | lds128 (i : Fin 2) (v : Word)
  /-- RDS128 i (R53). -/
  | rds128 (i : Fin 2)
  /-- NEXT256 (R58). -/
  | next256
  /-- JUMP256 (R60). -/
  | jump256
  /-- LDS256 i, v (R62). -/
  | lds256 (i : Fin 4) (v : Word)
  /-- RDS256 i (R63). -/
  | rds256 (i : Fin 4)
  /-- TOFLOAT v (R69). -/
  | toFloat (v : Word)
deriving DecidableEq, Repr

/-- A command as it is presented: the pair (`cmd`, `wdata`), format `CMD8` (R37). -/
structure Command where
  cmd   : Code
  wdata : Word
deriving DecidableEq, Repr

/-- What can happen at the port of one instance (R96): a command is presented, reset is applied, or nothing is
presented while the instance does whatever it has in progress (R86). The idle slot is the model's own: it says where,
inside a jump, a reset lands. DESIGN CHOICE (log 1). -/
inductive Input where
  | command (c : Command)
  | reset
  | idle
deriving DecidableEq, Repr

/-- Why a code is reserved: the classes R41 lists. A code in several classes is given the first of them, in this
order. DESIGN CHOICE (log 10). -/
inductive Reserved where
  /-- `unit` = 00: codes 0x00 to 0x3F. -/
  | unitZero
  /-- `zero` is not 00. -/
  | zeroField
  /-- FC with `func` other than 00: codes 0xD0 to 0xFF. -/
  | fcFunc
  /-- NEXT, JUMP or TOFLOAT with `idx` other than 00. -/
  | idxNonzero
  /-- LDS128 or RDS128 with `cmd[1]` = 1: index 2 or 3 of G128. -/
  | idx128High
deriving DecidableEq, Repr

/-- The two bits `cmd[7:6]` (R38). -/
inductive UnitField where
  | reserved
  | g128
  | g256
  | fc
deriving DecidableEq, Repr

/-- The two bits `cmd[5:4]`, by the names they have for G128 and G256 (R38). -/
inductive FuncField where
  | next
  | jump
  | lds
  | rds
deriving DecidableEq, Repr

/-- One row of the opcode table (R40, opcode_table.json): a code `c` is the row's when `c &&& mask = pattern`. -/
structure OpcodeRow where
  mnemonic : String
  pattern  : Code
  mask     : Code
  takesWdata    : Bool
  deliversRdata : Bool
deriving DecidableEq, Repr

/-- A `value` of an assembler line: a literal or the token `%last` (R44). -/
inductive Operand where
  | lit (n : Nat)
  | last
deriving DecidableEq, Repr

/-- An assembler line, as written: index and literal are numbers not yet checked (R44). -/
inductive AsmLine where
  | next128
  | jump128
  | lds128 (i : Nat) (v : Operand)
  | rds128 (i : Nat)
  | next256
  | jump256
  | lds256 (i : Nat) (v : Operand)
  | rds256 (i : Nat)
  | toFloat (v : Operand)
deriving DecidableEq, Repr

/-- The pseudo-instructions (R45). -/
inductive Pseudo where
  | seed128 (v0 v1 : Operand)
  | seed256 (v0 v1 v2 v3 : Operand)
  | lane128 (k : Nat)
  | lane256 (k : Nat)
  | nextF128
  | nextF256
deriving DecidableEq, Repr

/-- One line of a source text: a command's form or a pseudo-instruction. -/
inductive SourceLine where
  | line (l : AsmLine)
  | pseudo (p : Pseudo)
deriving DecidableEq, Repr

namespace Instr

/-- The row of the opcode table an instruction belongs to, by name (R40). -/
def mnemonic : Instr → String
  | .next128 => "NEXT128"
  | .jump128 => "JUMP128"
  | .lds128 _ _ => "LDS128"
  | .rds128 _ => "RDS128"
  | .next256 => "NEXT256"
  | .jump256 => "JUMP256"
  | .lds256 _ _ => "LDS256"
  | .rds256 _ => "RDS256"
  | .toFloat _ => "TOFLOAT"

/-- Which unit an instruction acts on (R2, R38). -/
def unit : Instr → UnitField
  | .next128 | .jump128 | .lds128 _ _ | .rds128 _ => .g128
  | .next256 | .jump256 | .lds256 _ _ | .rds256 _ => .g256
  | .toFloat _ => .fc

/-- Does the command take `wdata` (R40)? -/
def takesWdata : Instr → Bool
  | .lds128 _ _ | .lds256 _ _ | .toFloat _ => true
  | .next128 | .jump128 | .rds128 _ | .next256 | .jump256 | .rds256 _ => false

/-- Does the command deliver `rdata` (R40)? -/
def deliversRdata : Instr → Bool
  | .next128 | .rds128 _ | .next256 | .rds256 _ | .toFloat _ => true
  | .jump128 | .lds128 _ _ | .jump256 | .lds256 _ _ => false

end Instr

namespace AsmLine

/-- Does the command of this line deliver `rdata` (R40)? -/
def deliversRdata : AsmLine → Bool
  | .next128 | .rds128 _ | .next256 | .rds256 _ | .toFloat _ => true
  | .jump128 | .lds128 _ _ | .jump256 | .lds256 _ _ => false

/-- Does the line hold the token `%last` (R44)? -/
def usesLast : AsmLine → Bool
  | .lds128 _ .last | .lds256 _ .last | .toFloat .last => true
  | .lds128 _ (.lit _) | .lds256 _ (.lit _) | .toFloat (.lit _) => false
  | .next128 | .jump128 | .rds128 _ | .next256 | .jump256 | .rds256 _ => false

end AsmLine

namespace Pseudo

/-- The expansion of a pseudo-instruction (R45). -/
def expand : Pseudo → List AsmLine
  | .seed128 v0 v1 => [.lds128 0 v0, .lds128 1 v1]
  | .seed256 v0 v1 v2 v3 => [.lds256 0 v0, .lds256 1 v1, .lds256 2 v2, .lds256 3 v3]
  | .lane128 k => List.replicate k .jump128
  | .lane256 k => List.replicate k .jump256
  | .nextF128 => [.next128, .toFloat .last]
  | .nextF256 => [.next256, .toFloat .last]

end Pseudo

namespace SourceLine

/-- The command lines a source line stands for. -/
def expand : SourceLine → List AsmLine
  | .line l => [l]
  | .pseudo p => p.expand

end SourceLine

end Sys2Proof
end

