-- ==== Sys2Proof/Machine/State.lean ====
section
/-! DEFINITION. The state of one CORE instance (R24) with the input list and the run's record, the two reason types of
a stop, and the state right after reset (R23, R87). -/

namespace Sys2Proof.Machine

/-- Everything the spec gives one CORE instance (R24), the command sequence and the run's record (R18, R37, R95), and
one counter of the model's own. Plain data. -/
structure State where
  /-- `S128[0..1]` (R11). -/
  s128 : Words2
  /-- `S256[0..3]` (R12). -/
  s256 : Words4
  /-- `ACC128[0..1]`, hidden (R17). -/
  acc128 : Words2
  /-- `ACC256[0..3]`, hidden (R17). -/
  acc256 : Words4
  /-- `JC128`, hidden, the bit position of a jump of G128 (R17). -/
  jc128 : BitVec 7
  /-- `JC256`, hidden, the bit position of a jump of G256 (R17). -/
  jc256 : BitVec 8
  /-- `BUSY128`, hidden: a jump of G128 is in progress (R17). -/
  busy128 : Bool
  /-- `BUSY256`, hidden: a jump of G256 is in progress (R17). -/
  busy256 : Bool
  /-- `CI`, the command index: how many commands have completed since reset (R18). -/
  ci : Nat
  /-- What the caller has still to present, oldest first (R31, R96). DESIGN CHOICE (log 1, log 21). -/
  port : List Input
  /-- One entry per command completed since reset, in command order: its `rdata`, or `none` where it delivers none
  (R37, R95). -/
  responses : List (Option Word)
  /-- How often this instance has been reset: the index of the free values of R23. The model's own field, DESIGN
  CHOICE (log 4). -/
  resets : Nat
deriving DecidableEq, Repr

/-- CORE has no fault: "The set of synchronous exceptions of CORE is empty" (R73). So this type has no constructor and
no step can answer one; safe. -/
inductive Fault where
deriving DecidableEq, Repr

/-- Why a run stops (R74). -/
inductive Refusal where
  /-- An instruction without a meaning yet, raised by an arm of `exec`; no arm raises it in this model. Safe. -/
  | notModelled (mnemonic : String)
  /-- A reserved command code reached the port (R41, R74): raised by `step`, with the class of the code and the code.
  Safe: hardware may do anything with such a code, the model makes no claim. -/
  | reservedCode (why : Reserved) (cmd : Code)
  /-- An ill-formed line (R44): an index or literal out of range, or `%last` before any response. Raised by the
  caller's side only (`runLine`), never by `step`. Safe. -/
  | illFormedLine
deriving DecidableEq, Repr

namespace State

/-- The state right after reset number `n` of an instance whose caller has still `port` to present: the busy flags are
0, `CI` is 0, no response has been given, and every other register holds a free value (R23, R87, R88). -/
def afterReset (n : Nat) (port : List Input) : State :=
  { s128 := { w0 := Config.resetS128 n 0, w1 := Config.resetS128 n 1 }
    s256 := { w0 := Config.resetS256 n 0, w1 := Config.resetS256 n 1
              w2 := Config.resetS256 n 2, w3 := Config.resetS256 n 3 }
    acc128 := { w0 := Config.resetAcc128 n 0, w1 := Config.resetAcc128 n 1 }
    acc256 := { w0 := Config.resetAcc256 n 0, w1 := Config.resetAcc256 n 1
                w2 := Config.resetAcc256 n 2, w3 := Config.resetAcc256 n 3 }
    jc128 := Config.resetJc128 n
    jc256 := Config.resetJc256 n
    busy128 := false
    busy256 := false
    ci := 0
    port := port
    responses := []
    resets := n }

/-- The machine right after its first reset, with nothing presented yet (R23, R88). -/
def reset : State := afterReset 0 []

end State

end Sys2Proof.Machine
end

