-- ==== Sys2Proof/Machine/Ops.lean ====
section
/-! DEFINITION. The shared operations on the state: reading and writing a state word, completing a command, reset.
There is no memory to operate on (R25). There is no operation "take an exception" and none that returns from one: CORE
has no exceptions, no trap entry and no trap return (R73, R78, R79). -/

namespace Sys2Proof.Machine

/-- `S128[i]` (R8). -/
def readS128 (s : State) (i : Fin 2) : Word := word128 s.s128 i

/-- `S128[i] <- v` (R8). -/
def writeS128 (s : State) (i : Fin 2) (v : Word) : State := { s with s128 := setWord128 s.s128 i v }

/-- `S256[i]` (R8). -/
def readS256 (s : State) (i : Fin 4) : Word := word256 s.s256 i

/-- `S256[i] <- v` (R8). -/
def writeS256 (s : State) (i : Fin 4) (v : Word) : State := { s with s256 := setWord256 s.s256 i v }

/-- The end of every command: its response is delivered, `none` for a command that delivers none (R37), and
`CI <- CI + 1` (R46). -/
def complete (r : Option Word) (s : State) : State :=
  { s with responses := s.responses ++ [r], ci := s.ci + 1 }

/-- Reset applied from outside (R87): the busy flags are cleared, any jump in progress is abandoned, every other
register is again unspecified (a fresh free value), and a new run begins with `CI` = 0 and no responses (R18, R88,
R95). What the caller presents later stays. -/
def resetEvent (s : State) : State := State.afterReset (s.resets + 1) s.port

end Sys2Proof.Machine
end

