-- ==== Sys2Proof/Machine/FC.lean ====
section
/-! DEFINITION. FC, the bit-to-float converter: the value (R67), the bit pattern (R68), what a pattern denotes, and the
meaning of TOFLOAT (R69). The binary64 layout is PRESUMED, as the spec itself marks it (log 12). -/

namespace Sys2Proof.Machine

/-- `k = v >> 11`, the top 53 bits of `v`, as a number (R67). -/
def topBits (v : Word) : Nat := (v >>> 11).toNat

/-- `UNITVAL(v) = k × 2^-53`, an exact rational (R67). -/
def unitVal (v : Word) : ℚ := (topBits v : ℚ) / 2 ^ 53

/-- The index of the highest set bit of `k`, for `k` not 0 (R68). -/
def highBit (k : Nat) : Nat := Nat.log2 k

/-- A binary64 pattern `{sign, exp[10:0], frac[51:0]}` (R68). -/
def f64Pattern (sign : BitVec 1) (exp : BitVec 11) (frac : BitVec 52) : Word := (sign ++ exp) ++ frac

/-- `F64BITS(k)`, for `k` below 2^53 (R68): find the leading one, drop it, left-justify the rest. -/
def f64Bits (k : Nat) : Word :=
  if k = 0 then 0#64
  else f64Pattern 0#1 (BitVec.ofNat 11 (970 + highBit k)) (BitVec.ofNat 52 (k <<< (52 - highBit k)))

/-- The exponent field of a pattern, bits 62:52 (R68). -/
def f64Exp (w : Word) : Nat := (w.extractLsb' 52 11).toNat

/-- The fraction of a pattern, bits 51:0 (R68). -/
def f64Frac (w : Word) : Nat := (w.extractLsb' 0 52).toNat

/-- What a pattern denotes, as far as the spec says (R68): for an exponent field of 1 to 2046,
`(−1)^sign × 2^(exp − 1023) × (1 + frac × 2^-52)`; for the all-zero pattern 0; for the others the spec gives nothing. -/
def f64Value (w : Word) : Option ℚ :=
  if w = 0#64 then some 0
  else if 1 ≤ f64Exp w ∧ f64Exp w ≤ 2046 then
    some ((if w.getLsbD 63 then -1 else 1) * (2 : ℚ) ^ ((f64Exp w : ℤ) - 1023) * (1 + (f64Frac w : ℚ) / 2 ^ 52))
  else none

/-- TOFLOAT v (R69): no state is read or written but by completing. -/
def execToFloat (v : Word) (s : State) : Host.Outcome State Fault Refusal :=
  .next (complete (some (f64Bits (topBits v))) s)

end Sys2Proof.Machine
end

