-- ==== Sys2Proof/Machine/Bits.lean ====
section
/-! DEFINITION. The arithmetic primitives on `u64` that are not already `^^^`, `|||`, `<<<` and `>>>` of `BitVec 64`
(R7), and the bits of the jump polynomials by bit position (R49, R59). The readings of the four operators as
exclusive-or, or, truncating left shift and zero-filling right shift are PRESUMED, as the spec itself marks them
(log 13). -/

namespace Sys2Proof.Machine

/-- `rotl(x, k)`: "`(x << k) | (x >> (64-k))`", for k strictly between 0 and 64 (R7). -/
def rotl (x : Word) (k : Nat) : Word := (x <<< k) ||| (x >>> (64 - k))

/-- `bit(x, i)`, the bit `i` of `x` (R7). -/
def bit (x : Word) (i : Nat) : Bool := x.getLsbD i

/-- Bit position `b` of the polynomial of G128: bit `b mod 64` of word `b div 64` (R49, D12). -/
def polyBit128 (b : Nat) : Bool :=
  match b / 64 with
  | 0 => bit Config.jp128.w0 (b % 64)
  | _ => bit Config.jp128.w1 (b % 64)

/-- Bit position `b` of the polynomial of G256: bit `b mod 64` of word `b div 64` (R59, D12). -/
def polyBit256 (b : Nat) : Bool :=
  match b / 64 with
  | 0 => bit Config.jp256.w0 (b % 64)
  | 1 => bit Config.jp256.w1 (b % 64)
  | 2 => bit Config.jp256.w2 (b % 64)
  | _ => bit Config.jp256.w3 (b % 64)

end Sys2Proof.Machine
end

