-- ==== Sys2Proof/Machine/Flags.lean ====
section
/-! DEFINITION. CORE has no flags (R19). This file holds the one place another machine would set one: the 64-bit
addition, computed exactly and narrowed, so that what is dropped is the carry out of bit 63. -/

namespace Sys2Proof.Machine

/-- The exact sum of two words, before narrowing. -/
def exactSum (a b : Word) : Nat := a.toNat + b.toNat

/-- `a + b` of the spec: `(a + b) mod 2^64`, the carry silently discarded (R7, R19). -/
def wrapAdd (a b : Word) : Word := BitVec.ofNat 64 (exactSum a b)

end Sys2Proof.Machine
end

