-- ==== Sys2Proof/Machine/G128.lean ====
section
/-! DEFINITION. G128, the xoroshiro128+ generator: its step and output (R47), its jump (R49), and the meanings of
NEXT128, JUMP128, LDS128 and RDS128. -/

namespace Sys2Proof.Machine

/-- `OUT128(s0, s1) = s0 + s1`, wrapping (R47). -/
def out128 (s : Words2) : Word := wrapAdd s.w0 s.w1

/-- `STEP128` (R47): `x` is the updated `s1` of the source, `s0` the old one. -/
def step128 (s : Words2) : Words2 :=
  let x := s.w0 ^^^ s.w1
  { w0 := rotl s.w0 24 ^^^ x ^^^ (x <<< 16)
    w1 := rotl x 37 }

/-- The accumulation at bit position `b` (R49): the current running state `t` goes into the accumulator `a` when the
polynomial's bit is set. -/
def accumulate128 (b : Nat) (a t : Words2) : Words2 := if polyBit128 b then xor128 a t else a

/-- The loop of `JUMPFN128` from bit position `b`, with `n` positions to go (R49). The bit is tested before the step. -/
def jumpLoop128 : (n b : Nat) → (a t : Words2) → Words2
  | 0, _, a, _ => a
  | n + 1, b, a, t => jumpLoop128 n (b + 1) (accumulate128 b a t) (step128 t)

/-- `JUMPFN128` (R49): 128 positions from 0, the accumulator zero at the start. -/
def jumpFn128 (s : Words2) : Words2 := jumpLoop128 128 0 zero128 s

/-- NEXT128 (R48): the response from the old words, then one step. -/
def execNext128 (s : State) : Host.Outcome State Fault Refusal :=
  .next (complete (some (out128 s.s128)) { s with s128 := step128 s.s128 })

/-- JUMP128 (R50), one atomic command. The hidden registers are left as the engine's 128 micro-steps leave them (R51):
the accumulator holds the result, `JC128` stands at 127, `BUSY128` is 0. DEDUCED (log 5). -/
def execJump128 (s : State) : Host.Outcome State Fault Refusal :=
  .next (complete none
    { s with s128 := jumpFn128 s.s128, acc128 := jumpFn128 s.s128, jc128 := 127#7, busy128 := false })

/-- LDS128 i, v (R52). -/
def execLds128 (i : Fin 2) (v : Word) (s : State) : Host.Outcome State Fault Refusal :=
  .next (complete none (writeS128 s i v))

/-- RDS128 i (R53). -/
def execRds128 (i : Fin 2) (s : State) : Host.Outcome State Fault Refusal :=
  .next (complete (some (readS128 s i)) s)

end Sys2Proof.Machine
end

