-- ==== Sys2Proof/Machine/G256.lean ====
section
/-! DEFINITION. G256, the xoshiro256+ generator: its step and output (R57), its jump (R59), and the meanings of
NEXT256, JUMP256, LDS256 and RDS256. -/

namespace Sys2Proof.Machine

/-- `OUT256(s0, s1, s2, s3) = s0 + s3`, wrapping (R57). -/
def out256 (s : Words4) : Word := wrapAdd s.w0 s.w3

/-- `STEP256` (R57): the six updates one after another in the listed order, each line seeing the writes of the lines
before it (D13, `90_conflicts.md` C3). -/
def step256 (s : Words4) : Words4 :=
  let t := s.w1 <<< 17
  let s2 := s.w2 ^^^ s.w0
  let s3 := s.w3 ^^^ s.w1
  let s1 := s.w1 ^^^ s2
  let s0 := s.w0 ^^^ s3
  let s2 := s2 ^^^ t
  let s3 := rotl s3 45
  { w0 := s0, w1 := s1, w2 := s2, w3 := s3 }

/-- The accumulation at bit position `b` (R59). -/
def accumulate256 (b : Nat) (a t : Words4) : Words4 := if polyBit256 b then xor256 a t else a

/-- The loop of `JUMPFN256` from bit position `b`, with `n` positions to go (R59). -/
def jumpLoop256 : (n b : Nat) → (a t : Words4) → Words4
  | 0, _, a, _ => a
  | n + 1, b, a, t => jumpLoop256 n (b + 1) (accumulate256 b a t) (step256 t)

/-- `JUMPFN256` (R59): 256 positions from 0, the accumulator zero at the start. -/
def jumpFn256 (s : Words4) : Words4 := jumpLoop256 256 0 zero256 s

/-- NEXT256 (R58): the response from the old words, then one step. -/
def execNext256 (s : State) : Host.Outcome State Fault Refusal :=
  .next (complete (some (out256 s.s256)) { s with s256 := step256 s.s256 })

/-- JUMP256 (R60), one atomic command; the hidden registers as the engine's 256 micro-steps leave them (R61). DEDUCED
(log 5). -/
def execJump256 (s : State) : Host.Outcome State Fault Refusal :=
  .next (complete none
    { s with s256 := jumpFn256 s.s256, acc256 := jumpFn256 s.s256, jc256 := 255#8, busy256 := false })

/-- LDS256 i, v (R62). -/
def execLds256 (i : Fin 4) (v : Word) (s : State) : Host.Outcome State Fault Refusal :=
  .next (complete none (writeS256 s i v))

/-- RDS256 i (R63). -/
def execRds256 (i : Fin 4) (s : State) : Host.Outcome State Fault Refusal :=
  .next (complete (some (readS256 s i)) s)

end Sys2Proof.Machine
end

