-- ==== Sys2Proof/Machine/Dispatch.lean ====
section
/-! DEFINITION. One arm per constructor of `Instr`, each one call of its meaning. -/

namespace Sys2Proof.Machine

-- What a command does (R40), in the opcode table's order. Every arm answers a next state (R73).
def exec (c : Instr) (s : State) : Host.Outcome State Fault Refusal :=
  match c with
  | .next128 => Sys2Proof.Machine.execNext128 s
  | .jump128 => Sys2Proof.Machine.execJump128 s
  | .lds128 i v => Sys2Proof.Machine.execLds128 i v s
  | .rds128 i => Sys2Proof.Machine.execRds128 i s
  | .next256 => Sys2Proof.Machine.execNext256 s
  | .jump256 => Sys2Proof.Machine.execJump256 s
  | .lds256 i v => Sys2Proof.Machine.execLds256 i v s
  | .rds256 i => Sys2Proof.Machine.execRds256 i s
  | .toFloat v => Sys2Proof.Machine.execToFloat v s

end Sys2Proof.Machine
end

