-- ==== Sys2Proof/Decode.lean ====
section
/-! DEFINITION. The decoder, total on every command, rejecting by name (R38 to R41); the encoder, from the same
table; the opcode table as rows; and the host's view of the decoder. -/

namespace Sys2Proof

/-- The two-bit field `cmd[lo+1:lo]` of a code, as an unsigned integer (R6). -/
def twoBits (c : Code) (lo : Nat) : Fin 4 :=
  match c.getLsbD (lo + 1), c.getLsbD lo with
  | false, false => 0
  | false, true => 1
  | true, false => 2
  | true, true => 3

/-- `unit` = `cmd[7:6]` (R38). -/
def unitField (c : Code) : UnitField :=
  match twoBits c 6 with
  | 0 => .reserved
  | 1 => .g128
  | 2 => .g256
  | 3 => .fc

/-- `func` = `cmd[5:4]` (R38). -/
def funcField (c : Code) : FuncField :=
  match twoBits c 4 with
  | 0 => .next
  | 1 => .jump
  | 2 => .lds
  | 3 => .rds

/-- `zero` = `cmd[3:2]` (R38). -/
def zeroField (c : Code) : Fin 4 := twoBits c 2

/-- `idx` = `cmd[1:0]`, as it stands (R38, R39). -/
def idxField (c : Code) : Fin 4 := twoBits c 0

/-- The index of a G128 word, `cmd[0]`; `cmd[1]` must be 0 (R38, R39). -/
def idx128 (c : Code) : Except Reserved (Fin 2) :=
  match idxField c with
  | 0 => .ok 0
  | 1 => .ok 1
  | 2 => .error .idx128High
  | 3 => .error .idx128High

/-- An instruction whose `idx` must be 00 (R38). -/
def idxMustBeZero (c : Code) (i : Instr) : Except Reserved Instr :=
  match idxField c with
  | 0 => .ok i
  | 1 => .error .idxNonzero
  | 2 => .error .idxNonzero
  | 3 => .error .idxNonzero

/-- The commands of G128, by `func` (R40); `w` is `wdata`. -/
def decode128 (c : Code) (w : Word) : Except Reserved Instr :=
  match funcField c with
  | .next => idxMustBeZero c .next128
  | .jump => idxMustBeZero c .jump128
  | .lds => (idx128 c).map fun i => .lds128 i w
  | .rds => (idx128 c).map fun i => .rds128 i

/-- The commands of G256, by `func` (R40). -/
def decode256 (c : Code) (w : Word) : Except Reserved Instr :=
  match funcField c with
  | .next => idxMustBeZero c .next256
  | .jump => idxMustBeZero c .jump256
  | .lds => .ok (.lds256 (idxField c) w)
  | .rds => .ok (.rds256 (idxField c))

/-- The one command of FC, `func` = 00 (R38, R40). -/
def decodeFC (c : Code) (w : Word) : Except Reserved Instr :=
  match funcField c with
  | .next => idxMustBeZero c (.toFloat w)
  | .jump => .error .fcFunc
  | .lds => .error .fcFunc
  | .rds => .error .fcFunc

/-- What a code decodes to once its `zero` field is known to be 00, and the rejection where it is not (R38, R41). -/
def zeroMustBeZero (c : Code) (r : Except Reserved Instr) : Except Reserved Instr :=
  match zeroField c with
  | 0 => r
  | 1 => .error .zeroField
  | 2 => .error .zeroField
  | 3 => .error .zeroField

/-- The decoder by code and `wdata` (R38 to R41). `wdata` is looked at only by the commands that take it (R37, R39). -/
def decodeCode (c : Code) (w : Word) : Except Reserved Instr :=
  match unitField c with
  | .reserved => .error .unitZero
  | .g128 => zeroMustBeZero c (decode128 c w)
  | .g256 => zeroMustBeZero c (decode256 c w)
  | .fc => zeroMustBeZero c (decodeFC c w)

/-- The decoder (R40, R41): the instruction a command stands for, or why its code is reserved. -/
def decode (c : Command) : Except Reserved Instr :=
  match c with
  | { cmd, wdata } => decodeCode cmd wdata

/-- The code of an instruction (R40): the pattern of its row with the index in the low bits. -/
def encodeCode : Instr → Code
  | .next128 => 0x40#8
  | .jump128 => 0x50#8
  | .lds128 i _ => 0x60#8 ||| BitVec.ofNat 8 i
  | .rds128 i => 0x70#8 ||| BitVec.ofNat 8 i
  | .next256 => 0x80#8
  | .jump256 => 0x90#8
  | .lds256 i _ => 0xA0#8 ||| BitVec.ofNat 8 i
  | .rds256 i => 0xB0#8 ||| BitVec.ofNat 8 i
  | .toFloat _ => 0xC0#8

/-- The `wdata` presented with an instruction: its operand (R39), and 0 where it takes none, since "any value may be
presented and it has no effect" (R37). DESIGN CHOICE for the 0 (log 9). -/
def encodeWdata : Instr → Word
  | .lds128 _ v | .lds256 _ v | .toFloat v => v
  | .next128 | .jump128 | .rds128 _ | .next256 | .jump256 | .rds256 _ => 0#64

/-- The encoder: the command that stands for an instruction (R37, R40). -/
def encode (i : Instr) : Command := { cmd := encodeCode i, wdata := encodeWdata i }

/-- The opcode table (R40, opcode_table.json), row by row. -/
def opcodeTable : List OpcodeRow :=
  [ { mnemonic := "NEXT128", pattern := 0x40, mask := 0xFF, takesWdata := false, deliversRdata := true },
    { mnemonic := "JUMP128", pattern := 0x50, mask := 0xFF, takesWdata := false, deliversRdata := false },
    { mnemonic := "LDS128", pattern := 0x60, mask := 0xFE, takesWdata := true, deliversRdata := false },
    { mnemonic := "RDS128", pattern := 0x70, mask := 0xFE, takesWdata := false, deliversRdata := true },
    { mnemonic := "NEXT256", pattern := 0x80, mask := 0xFF, takesWdata := false, deliversRdata := true },
    { mnemonic := "JUMP256", pattern := 0x90, mask := 0xFF, takesWdata := false, deliversRdata := false },
    { mnemonic := "LDS256", pattern := 0xA0, mask := 0xFC, takesWdata := true, deliversRdata := false },
    { mnemonic := "RDS256", pattern := 0xB0, mask := 0xFC, takesWdata := false, deliversRdata := true },
    { mnemonic := "TOFLOAT", pattern := 0xC0, mask := 0xFF, takesWdata := true, deliversRdata := true } ]

/-- Does the code match the row? -/
def OpcodeRow.fits (r : OpcodeRow) (c : Code) : Bool := c &&& r.mask == r.pattern

/-- The seventeen codes of R40, written out. -/
def commandCodes : List Code :=
  [0x40, 0x50, 0x60, 0x61, 0x70, 0x71, 0x80, 0x90,
   0xA0, 0xA1, 0xA2, 0xA3, 0xB0, 0xB1, 0xB2, 0xB3, 0xC0]

/-- The command whose bits are `w`, bit 0 the least significant bit of `cmd`, `cmd` in bits 7..0 and `wdata` in bits
71..8, of which the lowest `nbits` are given and the rest are 0. The numbering beyond bit 7 is the model's: CORE has
no byte order (R26) and the table numbers `cmd` only. DESIGN CHOICE (log 9). -/
def commandOfBits (nbits w : Nat) : Command :=
  { cmd := BitVec.ofNat 8 (w % 2 ^ nbits)
    wdata := BitVec.ofNat 64 (w % 2 ^ nbits / 2 ^ 8) }

/-- The host's view of the decoder: the instruction read from a table word, `none` where the code is reserved. -/
def decodeTableWord (nbits w : Nat) : Option Instr :=
  match decode (commandOfBits nbits w) with
  | .ok i => some i
  | .error _ => none

end Sys2Proof
end

