-- ==== Sys2Proof/Machine/Engine.lean ====
section
/-! DEFINITION. The jump engines as micro-steps over the hidden registers (R51, R61). A start is what accepting the
JUMP does; a micro-step is one bit position; the last one finishes the command. -/

namespace Sys2Proof.Machine

/-- Start of the engine of G128, on accepting `cmd` = 0x50 (R51). -/
def start128 (s : State) : State := { s with busy128 := true, jc128 := 0#7, acc128 := zero128 }

/-- One micro-step of the engine of G128 (R51), `b = JC128`. The accumulation uses `S128` as it was before the step, and
the finishing writes at `b = 127` override the step's write; there the command completes, without a response. -/
def micro128 (s : State) : State :=
  let b := s.jc128.toNat
  let acc := accumulate128 b s.acc128 s.s128
  if b = 127 then complete none { s with acc128 := acc, s128 := acc, busy128 := false }
  else { s with acc128 := acc, s128 := step128 s.s128, jc128 := BitVec.ofNat 7 (b + 1) }

/-- Start of the engine of G256, on accepting `cmd` = 0x90 (R61). -/
def start256 (s : State) : State := { s with busy256 := true, jc256 := 0#8, acc256 := zero256 }

/-- One micro-step of the engine of G256 (R61), `b = JC256`. -/
def micro256 (s : State) : State :=
  let b := s.jc256.toNat
  let acc := accumulate256 b s.acc256 s.s256
  if b = 255 then complete none { s with acc256 := acc, s256 := acc, busy256 := false }
  else { s with acc256 := acc, s256 := step256 s.s256, jc256 := BitVec.ofNat 8 (b + 1) }

/-- What the instance does by itself while nothing is accepted: one micro-step of a jump in progress (R92), else it holds
its state (R86). Both flags at once is a state no run reaches; there the engine of G128 goes first. DESIGN CHOICE
(log 7). -/
def tick (s : State) : State :=
  if s.busy128 then micro128 s else if s.busy256 then micro256 s else s

end Sys2Proof.Machine
end

