-- ==== Sys2Proof/Machine/Port.lean ====
section
/-! DEFINITION. The port of one instance: which of the caller's inputs is taken, and when (R31, R87, R92, R96). Written
once, over what an accepted command does, so that the atomic machine and the machine of micro-steps share it. -/

namespace Sys2Proof.Machine

/-- Is a jump in progress (R17)? -/
def busy (s : State) : Bool := s.busy128 || s.busy256

/-- Take a command that has been presented: a reserved code is refused, decided from `cmd` alone (R41, R74, R77);
another runs. -/
def accept (run : Instr → State → Host.Outcome State Fault Refusal) (c : Command) (s : State) :
    Host.Outcome State Fault Refusal :=
  match decode c with
  | .ok i => run i s
  | .error why => .refused (.reservedCode why c.cmd)

/-- One step at the port. A reset acts at once, a jump in progress or not (R87). A command is accepted only while no jump
is in progress; otherwise it waits and the jump goes on (R92). With nothing presented the instance does what it has in
progress, else holds its state (R86). A reset that the caller lists behind a waiting command does not overtake it: it acts
when the jump has ended and that command has been taken. The spec leaves this case open; DESIGN CHOICE (log 21). -/
def portStep (run : Instr → State → Host.Outcome State Fault Refusal) (s : State) :
    Host.Outcome State Fault Refusal :=
  match s.port with
  | [] => .next (tick s)
  | .reset :: rest => .next (resetEvent { s with port := rest })
  | .idle :: rest => .next (tick { s with port := rest })
  | .command c :: rest =>
    if busy s then .next (tick s) else accept run c { s with port := rest }

/-- `s` with a command placed where it is the next thing taken: at the head of the port, no jump in progress (a command
is not accepted during one, R92). -/
def withCommand (s : State) (c : Command) : State :=
  { s with port := .command c :: s.port, busy128 := false, busy256 := false }

end Sys2Proof.Machine
end

