-- ==== Sys2Proof/Machine/Step.lean ====
section
/-! DEFINITION. The step of the machine, a command being one atomic step (R9, R28), and the host's way to place an
instruction. -/

namespace Sys2Proof.Machine

/-- One step of a CORE instance. -/
def step (s : State) : Host.Outcome State Fault Refusal := portStep exec s

/-- `s` with the instruction of a table word as the next command taken. Nothing is fetched in CORE (R34): a program is
what the caller presents (log 11). -/
def State.withFetchWord (s : State) (nbits w : Nat) : State := withCommand s (commandOfBits nbits w)

end Sys2Proof.Machine
end

