-- ==== Sys2Proof/Machine/Micro.lean ====
section
/-! DEFINITION. The same instance at the grain of micro-steps (R51, R61): accepting a JUMP only starts its engine, each
further step is one bit position, and the next command waits (R92). It is given, as the rules are, "so that a model which
wants to execute a jump in 128 small steps and a model which executes it as one function can be shown equal". -/

namespace Sys2Proof.Machine

/-- What accepting a command does here: a JUMP starts its engine, every other command runs as in `exec`. -/
def launch (c : Instr) (s : State) : Host.Outcome State Fault Refusal :=
  match c with
  | .jump128 => .next (start128 s)
  | .jump256 => .next (start256 s)
  | .next128 => execNext128 s
  | .lds128 i v => execLds128 i v s
  | .rds128 i => execRds128 i s
  | .next256 => execNext256 s
  | .lds256 i v => execLds256 i v s
  | .rds256 i => execRds256 i s
  | .toFloat v => execToFloat v s

/-- One step of the machine of micro-steps. -/
def microStep (s : State) : Host.Outcome State Fault Refusal := portStep launch s

/-- `n` steps of a machine on these states, stopping at the first stop. -/
def runWith (one : State → Host.Outcome State Fault Refusal) : Nat → State → Host.Outcome State Fault Refusal
  | 0, s => .next s
  | n + 1, s =>
    match one s with
    | .next t => runWith one n t
    | .fault f => .fault f
    | .refused r => .refused r

end Sys2Proof.Machine
end

