-- ==== Sys2Proof/WellFormed.lean ====
section
/-! DEFINITION. What a well-formed assembler line and program is (R44): each index in its command's range, each
literal a `u64`, and `%last` only after a command that delivered a response. An `Instr` needs no check: its index is a
`Fin`, its operand a `BitVec`, so every value of the type is a command of R40. -/

namespace Sys2Proof

/-- A literal is 1 to 16 hexadecimal digits, so below 2^64; `%last` is always a form of `value` (R44). -/
def Operand.wf : Operand → Bool
  | .lit n => decide (n < 2 ^ 64)
  | .last => true

/-- Index 0 or 1 for G128, 0 to 3 for G256; a value fits 64 bits (R44). -/
def AsmLine.wf : AsmLine → Bool
  | .lds128 i v => decide (i < 2) && v.wf
  | .rds128 i => decide (i < 2)
  | .lds256 i v => decide (i < 4) && v.wf
  | .rds256 i => decide (i < 4)
  | .toFloat v => v.wf
  | .next128 | .jump128 | .next256 | .jump256 => true

/-- Is the program well-formed from here, `delivered` saying whether an earlier command delivered a response?
"A program in which `%last` appears before any such command is ill-formed" (R44). -/
def AsmLine.programWfFrom (delivered : Bool) : List AsmLine → Bool
  | [] => true
  | l :: rest =>
    l.wf && (!l.usesLast || delivered) && programWfFrom (delivered || l.deliversRdata) rest

/-- A well-formed program (R44). -/
def AsmLine.programWf (p : List AsmLine) : Bool := programWfFrom false p

/-- A source text is well-formed when its expansion is (R45). -/
def SourceLine.programWf (p : List SourceLine) : Bool :=
  AsmLine.programWf (p.flatMap SourceLine.expand)

end Sys2Proof
end

