-- ==== Sys2Proof/Machine/Caller.lean ====
section
/-! DEFINITION. The caller's side, as far as the spec gives it: presenting a command, the host note `%last` (R44), running
a well-formed program of assembler lines line by line (R45, R46), and the result of a run (R95). None of it is state of
CORE. -/

namespace Sys2Proof.Machine

/-- The caller presents one more input, after those already waiting (R31). -/
def present (s : State) (x : Input) : State := { s with port := s.port ++ [x] }

/-- The operand the caller presents as `wdata`: a literal that fits, or the most recent response so far in the program,
if there is one (R44). -/
def operandValue (last : Option Word) : Operand → Option Word
  | .lit n => if n < 2 ^ 64 then some (BitVec.ofNat 64 n) else none
  | .last => last

/-- The instruction a line stands for, `none` where the line is ill-formed (R44). -/
def lineInstr (last : Option Word) : AsmLine → Option Instr
  | .next128 => some .next128
  | .jump128 => some .jump128
  | .lds128 i v => if h : i < 2 then (operandValue last v).map (.lds128 ⟨i, h⟩) else none
  | .rds128 i => if h : i < 2 then some (.rds128 ⟨i, h⟩) else none
  | .next256 => some .next256
  | .jump256 => some .jump256
  | .lds256 i v => if h : i < 4 then (operandValue last v).map (.lds256 ⟨i, h⟩) else none
  | .rds256 i => if h : i < 4 then some (.rds256 ⟨i, h⟩) else none
  | .toFloat v => (operandValue last v).map .toFloat

/-- Issue one line: present its command and let the instance take one step. -/
def runLine (last : Option Word) (l : AsmLine) (s : State) : Host.Outcome State Fault Refusal :=
  match lineInstr last l with
  | some i => step (present s (.command (encode i)))
  | none => .refused .illFormedLine

/-- What `%last` means after a command: its response if it delivered one, else what it meant before (R44). -/
def updateLast (last : Option Word) (s : State) : Option Word :=
  match s.responses.getLast? with
  | some (some v) => some v
  | some none => last
  | none => last

/-- Issue the lines in order, each after the one before it has completed (R31, R46). -/
def runLines : (last : Option Word) → List AsmLine → State → Host.Outcome State Fault Refusal
  | _, [], s => .next s
  | last, l :: rest, s =>
    match runLine last l s with
    | .next t => runLines (updateLast last t) rest t
    | .fault f => .fault f
    | .refused r => .refused r

/-- Run a program: `%last` refers to commands of this program only (R44). -/
def runProgram (p : List AsmLine) (s : State) : Host.Outcome State Fault Refusal := runLines none p s

/-- Run a source text, its pseudo-instructions expanded (R45). -/
def runSource (p : List SourceLine) (s : State) : Host.Outcome State Fault Refusal :=
  runProgram (p.flatMap SourceLine.expand) s

/-- Does a command of the present run wait? A reset begins another run, so a command behind one belongs to that (R95,
log 8); an idle slot is no command. -/
def commandWaiting : List Input → Bool
  | [] => false
  | .reset :: _ => false
  | .idle :: rest => commandWaiting rest
  | .command _ :: _ => true

/-- A run has ended: no command is waiting and no jump is in progress (R95). Its result can be taken until a reset
begins the next. -/
def ended (s : State) : Bool := !commandWaiting s.port && !busy s

/-- "the list of responses, one per command that delivers `rdata`, in command order, together with the six state words"
(R95). -/
structure RunResult where
  responses : List Word
  s128 : Words2
  s256 : Words4
deriving DecidableEq, Repr

/-- The result of a run (R95). -/
def runResult (s : State) : RunResult :=
  { responses := s.responses.filterMap id, s128 := s.s128, s256 := s.s256 }

end Sys2Proof.Machine
end

