-- ==== Sys2Proof/Machine/System.lean ====
section
/-! DEFINITION. Several instances (R5, R36, R83): a system of `n` CORE instances that share nothing but the constants,
driven in any interleaving. `n` is `N_INSTANCES`, an open parameter (D15). -/

namespace Sys2Proof.Machine

/-- What can happen to one instance: the caller presents an input, or the instance takes a step. -/
inductive CoreEvent where
  | present (x : Input)
  | advance
deriving DecidableEq, Repr

/-- One instance of a system: it runs, or a reserved code has stopped it. A stopped instance keeps the state it was in
when it met the code, so that what it had delivered before stands (R95); of what follows nothing is said (R74). -/
inductive Instance where
  | running (s : State)
  | stopped (before : State) (why : Refusal)
deriving DecidableEq, Repr

/-- One event at one instance. A stopped instance stays as it is (log 16). -/
def coreEvent (e : CoreEvent) : Instance → Instance
  | .stopped s why => .stopped s why
  | .running s =>
    match e with
    | .present x => .running (present s x)
    | .advance =>
      match step s with
      | .next t => .running t
      | .refused why => .stopped s why
      | .fault f => nomatch f

/-- The events of one instance in order. -/
def coreEvents (es : List CoreEvent) (x : Instance) : Instance := es.foldl (fun y e => coreEvent e y) x

/-- A system of `n` instances: no instance can read or write another's state (R14), and one that is stopped leaves the
others running (R36, R74). -/
structure System (n : Nat) where
  cores : Vector Instance n
deriving DecidableEq, Repr

/-- An event at instance `k` of a system. -/
def systemEvent {n : Nat} (k : Fin n) (e : CoreEvent) (y : System n) : System n :=
  { cores := y.cores.set k (coreEvent e y.cores[k]) }

/-- A run of a system: events at its instances in some interleaving (R36). -/
def systemEvents {n : Nat} (es : List (Fin n × CoreEvent)) (y : System n) : System n :=
  es.foldl (fun z e => systemEvent e.1 e.2 z) y

/-- The events of an interleaving that are instance `k`'s, in order. -/
def eventsOf {n : Nat} (k : Fin n) (es : List (Fin n × CoreEvent)) : List CoreEvent :=
  es.filterMap fun e => if e.1 = k then some e.2 else none

/-- The state of lane number `n` of a G128 stream with the given seed: the seed jumped `n` times (R83). -/
def lane128 (seed : Words2) (n : Nat) : Words2 := jumpFn128^[n] seed

/-- The same for G256 (R83). -/
def lane256 (seed : Words4) (n : Nat) : Words4 := jumpFn256^[n] seed

end Sys2Proof.Machine
end

