-- ==== Sys2Proof/Safety.lean ====
section
/-! DEFINITION. What claims are stated in: idle states, legal inputs, the invariant of a run, what a caller must load
before it uses a generator's outputs (R89). -/

namespace Sys2Proof.Safety

open Sys2Proof.Machine

/-- No jump is in progress (R17). -/
abbrev Idle (s : State) : Prop := s.busy128 = false ∧ s.busy256 = false

/-- Idle, and nothing waits at the port: a run that has ended, or has not begun (R95). -/
abbrev Quiet (s : State) : Prop := Idle s ∧ s.port = []

/-- Does the code of a command name an instruction (R40)? -/
def legalCode (c : Command) : Bool :=
  match decode c with
  | .ok _ => true
  | .error _ => false

/-- Does the command deliver a response (R37, R40)? -/
def delivers (c : Command) : Bool :=
  match decode c with
  | .ok i => i.deliversRdata
  | .error _ => false

/-- An input the caller may present: anything but a reserved code (R41, R96). -/
def legalInput : Input → Bool
  | .command c => legalCode c
  | .reset => true
  | .idle => true

/-- Whatever `wdata` comes with it, the code stands for the instruction: presented to an idle instance, it is what the step
runs (R37, R40). -/
def CodeRuns (cmd : Code) (c : Word → Instr) : Prop :=
  ∀ s w rest, Idle s → s.port = .command { cmd := cmd, wdata := w } :: rest →
    step s = exec (c w) { s with port := rest }

/-- The inputs of a caller that issues these instructions one after another (R31). -/
def commandsOf (is : List Instr) : List Input := is.map fun i => .command (encode i)

/-- The responses that NEXT128 commands got, of the instructions `is` and their responses `rs` in order. -/
def next128Responses (is : List Instr) (rs : List (Option Word)) : List (Option Word) :=
  ((is.zip rs).filter fun p => p.1 = .next128).map Prod.snd

/-- The responses that NEXT256 commands got. -/
def next256Responses (is : List Instr) (rs : List (Option Word)) : List (Option Word) :=
  ((is.zip rs).filter fun p => p.1 = .next256).map Prod.snd

/-- What every run keeps: one response entry per completed command (R37, R46, R95), and never two jumps at once
(R31, R92). -/
abbrev RunInv (s : State) : Prop :=
  s.responses.length = s.ci ∧ ¬(s.busy128 = true ∧ s.busy256 = true)

/-- Which words of the generators have been loaded since reset. CORE keeps no such bits (R89): this is the caller's
book-keeping. -/
structure Loaded where
  g128 : Fin 2 → Bool
  g256 : Fin 4 → Bool

/-- Nothing loaded. -/
def Loaded.none : Loaded := { g128 := fun _ => false, g256 := fun _ => false }

/-- The book-keeping after an instruction. -/
def Loaded.after (l : Loaded) : Instr → Loaded
  | .lds128 i _ => { l with g128 := fun j => l.g128 j || decide (j = i) }
  | .lds256 i _ => { l with g256 := fun j => l.g256 j || decide (j = i) }
  | .next128 | .jump128 | .rds128 _ | .next256 | .jump256 | .rds256 _ | .toFloat _ => l

/-- Are all words loaded that the instruction's generator is to have before it is used: "both of `S128[0]`, `S128[1]` ...
before the first NEXT128, JUMP128 or RDS128", "all four of `S256[0..3]` ... before the first NEXT256, JUMP256 or RDS256";
"FC needs no initialisation" (R89)? -/
def Loaded.allows (l : Loaded) : Instr → Prop
  | .next128 | .jump128 | .rds128 _ => ∀ i, l.g128 i = true
  | .next256 | .jump256 | .rds256 _ => ∀ i, l.g256 i = true
  | .lds128 _ _ | .lds256 _ _ | .toFloat _ => True

/-- The caller keeps R89 with these inputs, `l` being loaded already: every use of a generator comes after all its words
are loaded, and after a reset nothing is loaded. A reserved code ends the run (R74), so nothing is asked after it. -/
def LoadsBeforeUse (l : Loaded) : List Input → Prop
  | [] => True
  | .idle :: rest => LoadsBeforeUse l rest
  | .reset :: rest => LoadsBeforeUse Loaded.none rest
  | .command c :: rest =>
    match decode c with
    | .ok i => l.allows i ∧ LoadsBeforeUse (l.after i) rest
    | .error _ => True

end Sys2Proof.Safety
end

