-- ==== Sys2Proof/Certificates/Slice0/Obligations.lean ====
section
/-! DEFINITION. The statements for the provers. Each formalises what the rules of spec/ named in its docstring say. No
statement rests on a free value: one about a register after reset would hold for every value of it. -/

open Sys2Proof Sys2Proof.Machine Sys2Proof.Safety

/-! ### Encoding and the port -/

/-- R40: the seventeen codes and the instruction each stands for, written out bit by bit with any `wdata`; every other
code is reserved; and which commands deliver a response. -/
def Obligations.SeventeenCodesDecode : Prop :=
  (∀ w, decode { cmd := 0b01000000#8, wdata := w } = .ok .next128) ∧
  (∀ w, decode { cmd := 0b01010000#8, wdata := w } = .ok .jump128) ∧
  (∀ w, decode { cmd := 0b01100000#8, wdata := w } = .ok (.lds128 0 w)) ∧
  (∀ w, decode { cmd := 0b01100001#8, wdata := w } = .ok (.lds128 1 w)) ∧
  (∀ w, decode { cmd := 0b01110000#8, wdata := w } = .ok (.rds128 0)) ∧
  (∀ w, decode { cmd := 0b01110001#8, wdata := w } = .ok (.rds128 1)) ∧
  (∀ w, decode { cmd := 0b10000000#8, wdata := w } = .ok .next256) ∧
  (∀ w, decode { cmd := 0b10010000#8, wdata := w } = .ok .jump256) ∧
  (∀ w, decode { cmd := 0b10100000#8, wdata := w } = .ok (.lds256 0 w)) ∧
  (∀ w, decode { cmd := 0b10100001#8, wdata := w } = .ok (.lds256 1 w)) ∧
  (∀ w, decode { cmd := 0b10100010#8, wdata := w } = .ok (.lds256 2 w)) ∧
  (∀ w, decode { cmd := 0b10100011#8, wdata := w } = .ok (.lds256 3 w)) ∧
  (∀ w, decode { cmd := 0b10110000#8, wdata := w } = .ok (.rds256 0)) ∧
  (∀ w, decode { cmd := 0b10110001#8, wdata := w } = .ok (.rds256 1)) ∧
  (∀ w, decode { cmd := 0b10110010#8, wdata := w } = .ok (.rds256 2)) ∧
  (∀ w, decode { cmd := 0b10110011#8, wdata := w } = .ok (.rds256 3)) ∧
  (∀ w, decode { cmd := 0b11000000#8, wdata := w } = .ok (.toFloat w)) ∧
  (∀ c : Command, c.cmd ∉ ([0x40, 0x50, 0x60, 0x61, 0x70, 0x71, 0x80, 0x90, 0xA0, 0xA1, 0xA2, 0xA3,
      0xB0, 0xB1, 0xB2, 0xB3, 0xC0] : List Code) → ∃ why, decode c = .error why) ∧
  (∀ i s, ∃ t r, exec i s = .next t ∧ t.responses = s.responses ++ [r] ∧
    (r.isSome ↔ i = .next128 ∨ (∃ k, i = .rds128 k) ∨ i = .next256 ∨ (∃ k, i = .rds256 k) ∨ ∃ v, i = .toFloat v))

/-- Decoding an encoded instruction gives it back, with every index and every operand (from the tables of R38 to R40). -/
def Obligations.DecodeOfEncode : Prop := ∀ i : Instr, decode (encode i) = .ok i

/-- A command that decodes has the code its instruction is encoded to, and its `wdata` where the instruction takes it:
no two codes mean the same and no bit of a used operand is dropped. -/
def Obligations.EncodeOfDecode : Prop :=
  ∀ (c : Command) (i : Instr), decode c = .ok i →
    (encode i).cmd = c.cmd ∧ (i.takesWdata = true → (encode i).wdata = c.wdata)

/-- The decoder and the opcode table agree: a code decodes exactly when a row of the table fits it, the rows never
overlap, and the row's name and columns are the instruction's (R40, opcode_table.json). -/
def Obligations.DecoderAgreesWithOpcodeTable : Prop :=
  (∀ c : Command, (∃ i, decode c = .ok i) ↔ ∃ r ∈ opcodeTable, r.fits c.cmd = true) ∧
  (∀ c : Code, opcodeTable.Pairwise fun r q => ¬(r.fits c = true ∧ q.fits c = true)) ∧
  (∀ (c : Command) (i : Instr) (r : OpcodeRow), decode c = .ok i → r ∈ opcodeTable → r.fits c.cmd = true →
    r.mnemonic = i.mnemonic ∧ r.takesWdata = i.takesWdata ∧ r.deliversRdata = i.deliversRdata)

/-- R41: each class of reserved code is refused: no next state and no fault. 239 of the 256 codes are. -/
def Obligations.ReservedCodesRefused : Prop :=
  (∀ (s : State) (c : Command) (rest : List Input), Idle s → s.port = .command c :: rest →
    (c.cmd.extractLsb' 6 2 = 0b00#2 ∨
      c.cmd.extractLsb' 2 2 ≠ 0b00#2 ∨
      (c.cmd.getLsbD 5 = false ∧ c.cmd.extractLsb' 0 2 ≠ 0b00#2) ∨
      (c.cmd.extractLsb' 6 2 = 0b01#2 ∧ c.cmd.getLsbD 1 = true) ∨
      (c.cmd.extractLsb' 6 2 = 0b11#2 ∧ c.cmd.extractLsb' 4 2 ≠ 0b00#2)) →
    ∃ why, step s = .refused (.reservedCode why c.cmd)) ∧
  ((List.range 256).filter fun n => !legalCode { cmd := BitVec.ofNat 8 n, wdata := 0#64 }).length = 239

/-- The machine stops only on a reserved code, and says which; it never faults (R73, R74). -/
def Obligations.StopsOnlyOnReservedCode : Prop :=
  (∀ s f, step s ≠ .fault f) ∧
  (∀ s r, step s = .refused r →
    ∃ c rest why, s.port = .command c :: rest ∧ Idle s ∧ decode c = .error why ∧ r = .reservedCode why c.cmd)

/-- A step runs the decoded command: with an idle instance and a command at the head of the port, `step` is `exec` of what
the command decodes to, the command taken off the port (R31, R37). -/
def Obligations.StepRunsDecodedCommand : Prop :=
  ∀ (s : State) (c : Command) (rest : List Input) (i : Instr), Idle s → s.port = .command c :: rest →
    decode c = .ok i → step s = exec i { s with port := rest }

/-- The instruction of a table word, placed by `withFetchWord` in any state, is the one the very next step runs. -/
def Obligations.FetchWordRunsNext : Prop :=
  ∀ (s : State) (nbits w : Nat) (i : Instr), decodeTableWord nbits w = some i →
    step (s.withFetchWord nbits w) = exec i { s with busy128 := false, busy256 := false }

/-- R37: a command that takes no operand ignores `wdata` entirely: with any other `wdata` the step is the same. -/
def Obligations.UnusedWdataIgnored : Prop :=
  ∀ (s : State) (c : Command) (rest : List Input) (w : Word), s.port = .command c :: rest →
    (∀ i, decode c = .ok i → i.takesWdata = false) → Idle s →
    step { s with port := .command { c with wdata := w } :: rest } = step s

/-- R86: an idle instance with nothing presented, or an idle slot, holds its state. -/
def Obligations.IdleInstanceHoldsState : Prop :=
  (∀ s, Quiet s → step s = .next s) ∧
  (∀ s rest, Idle s → s.port = .idle :: rest → step s = .next { s with port := rest })

/-- R92: while a jump is in progress no command is accepted, in the machine of micro-steps, where jumps take time. In every
state with the run invariant, so with one jump in progress at most: a step leaves the port, the other generator and the
reset count as they are; before the last bit position it is one micro-step and the run's record is as before; at the last
the instance is idle, and the waiting command is then taken on the state the finished jump leaves. That the command
completes (`CI`, the response entry) at the last position is the model's reading, log 6. -/
def Obligations.BusyInstanceAcceptsNoCommand : Prop :=
  (∀ s c rest, RunInv s → s.busy128 = true → s.port = .command c :: rest →
    ∃ t, microStep s = .next t ∧ t.port = s.port ∧ t.s256 = s.s256 ∧ t.resets = s.resets ∧ t.busy256 = false ∧
      (s.jc128 ≠ 127#7 → t.busy128 = true ∧ t.jc128 = s.jc128 + 1#7 ∧ t.ci = s.ci ∧ t.responses = s.responses ∧
        t.s128 = step128 s.s128) ∧
      (s.jc128 = 127#7 → t.busy128 = false ∧ t.ci = s.ci + 1 ∧ t.responses = s.responses ++ [none] ∧
        t.s128 = t.acc128 ∧ microStep t = accept launch c { t with port := rest })) ∧
  (∀ s c rest, RunInv s → s.busy256 = true → s.port = .command c :: rest →
    ∃ t, microStep s = .next t ∧ t.port = s.port ∧ t.s128 = s.s128 ∧ t.resets = s.resets ∧ t.busy128 = false ∧
      (s.jc256 ≠ 255#8 → t.busy256 = true ∧ t.jc256 = s.jc256 + 1#8 ∧ t.ci = s.ci ∧ t.responses = s.responses ∧
        t.s256 = step256 s.s256) ∧
      (s.jc256 = 255#8 → t.busy256 = false ∧ t.ci = s.ci + 1 ∧ t.responses = s.responses ++ [none] ∧
        t.s256 = t.acc256 ∧ microStep t = accept launch c { t with port := rest }))

/-- Reset applied from outside acts at once, even during a jump: the busy flags are 0, `CI` is 0, no response of the run
before is left, and what the caller presents later stays (R87, R18, R95; that the run's record starts anew is the model's
reading, log 8). It says nothing of the registers R23 leaves unspecified. -/
def Obligations.ResetEventAtAnyTime : Prop :=
  ∀ s rest, s.port = .reset :: rest → ∃ t, step s = .next t ∧ Idle t ∧ t.ci = 0 ∧ t.responses = [] ∧ t.port = rest

/-- R88: after reset an instance is idle, its next command has index 0, and the first command presented is accepted. -/
def Obligations.FirstCommandAfterReset : Prop :=
  Idle State.reset ∧ State.reset.ci = 0 ∧ State.reset.port = [] ∧ State.reset.responses = [] ∧
  ∀ c i, decode c = .ok i → step (present State.reset (.command c)) = exec i State.reset

/-! ### The nine commands: result and frame -/

/-- R48: NEXT128. Both the response and the new words are from the old words; nothing else changes but the run's
record. -/
def Obligations.Next128Result : Prop :=
  CodeRuns 0x40#8 (fun _ => .next128) ∧
  ∀ s : State, exec .next128 s = .next { s with
    s128 :=
      { w0 := s.s128.w0.rotateLeft 24 ^^^ (s.s128.w0 ^^^ s.s128.w1) ^^^ ((s.s128.w0 ^^^ s.s128.w1) <<< 16)
        w1 := (s.s128.w0 ^^^ s.s128.w1).rotateLeft 37 }
    responses := s.responses ++ [some (s.s128.w0 + s.s128.w1)]
    ci := s.ci + 1 }

/-- R50: JUMP128 replaces the state words by `JUMPFN128` of them and delivers no response. Its engine's hidden registers
(`ACC128`, `JC128`) are not part of the frame: R51 writes them. -/
def Obligations.Jump128Result : Prop :=
  CodeRuns 0x50#8 (fun _ => .jump128) ∧
  ∀ s : State, ∃ t, exec .jump128 s = .next t ∧ t.s128 = jumpFn128 s.s128 ∧ t.busy128 = false ∧
    t.responses = s.responses ++ [none] ∧ t.ci = s.ci + 1 ∧ t.s256 = s.s256 ∧ t.acc256 = s.acc256 ∧
    t.jc256 = s.jc256 ∧ t.busy256 = s.busy256 ∧ t.port = s.port ∧ t.resets = s.resets

/-- R52: LDS128 loads the word its index names and nothing else. -/
def Obligations.Lds128Result : Prop :=
  CodeRuns 0x60#8 (fun w => .lds128 0 w) ∧ CodeRuns 0x61#8 (fun w => .lds128 1 w) ∧
  (∀ s v, exec (.lds128 0 v) s = .next { s with
    s128 := { s.s128 with w0 := v }, responses := s.responses ++ [none], ci := s.ci + 1 }) ∧
  (∀ s v, exec (.lds128 1 v) s = .next { s with
    s128 := { s.s128 with w1 := v }, responses := s.responses ++ [none], ci := s.ci + 1 })

/-- R53: RDS128 delivers the word its index names and changes nothing. -/
def Obligations.Rds128Result : Prop :=
  CodeRuns 0x70#8 (fun _ => .rds128 0) ∧ CodeRuns 0x71#8 (fun _ => .rds128 1) ∧
  (∀ s, exec (.rds128 0) s = .next { s with responses := s.responses ++ [some s.s128.w0], ci := s.ci + 1 }) ∧
  (∀ s, exec (.rds128 1) s = .next { s with responses := s.responses ++ [some s.s128.w1], ci := s.ci + 1 })

/-- R58: NEXT256. Both the response and the new words are from the old words; nothing else changes but the run's
record. -/
def Obligations.Next256Result : Prop :=
  CodeRuns 0x80#8 (fun _ => .next256) ∧
  ∀ s : State, ∃ t, exec .next256 s = .next t ∧
    t = { s with
      s256 :=
        { w0 := s.s256.w0 ^^^ s.s256.w1 ^^^ s.s256.w3
          w1 := s.s256.w0 ^^^ s.s256.w1 ^^^ s.s256.w2
          w2 := s.s256.w0 ^^^ s.s256.w2 ^^^ (s.s256.w1 <<< 17)
          w3 := (s.s256.w1 ^^^ s.s256.w3).rotateLeft 45 }
      responses := s.responses ++ [some (s.s256.w0 + s.s256.w3)]
      ci := s.ci + 1 }

/-- R60: JUMP256 replaces the state words by `JUMPFN256` of them and delivers no response. -/
def Obligations.Jump256Result : Prop :=
  CodeRuns 0x90#8 (fun _ => .jump256) ∧
  ∀ s : State, ∃ t, exec .jump256 s = .next t ∧ t.s256 = jumpFn256 s.s256 ∧ t.busy256 = false ∧
    t.responses = s.responses ++ [none] ∧ t.ci = s.ci + 1 ∧ t.s128 = s.s128 ∧ t.acc128 = s.acc128 ∧
    t.jc128 = s.jc128 ∧ t.busy128 = s.busy128 ∧ t.port = s.port ∧ t.resets = s.resets

/-- R62: LDS256 loads the word its index names and nothing else. -/
def Obligations.Lds256Result : Prop :=
  CodeRuns 0xA0#8 (fun w => .lds256 0 w) ∧ CodeRuns 0xA1#8 (fun w => .lds256 1 w) ∧
  CodeRuns 0xA2#8 (fun w => .lds256 2 w) ∧ CodeRuns 0xA3#8 (fun w => .lds256 3 w) ∧
  (∀ s v, exec (.lds256 0 v) s = .next { s with
    s256 := { s.s256 with w0 := v }, responses := s.responses ++ [none], ci := s.ci + 1 }) ∧
  (∀ s v, exec (.lds256 1 v) s = .next { s with
    s256 := { s.s256 with w1 := v }, responses := s.responses ++ [none], ci := s.ci + 1 }) ∧
  (∀ s v, exec (.lds256 2 v) s = .next { s with
    s256 := { s.s256 with w2 := v }, responses := s.responses ++ [none], ci := s.ci + 1 }) ∧
  (∀ s v, exec (.lds256 3 v) s = .next { s with
    s256 := { s.s256 with w3 := v }, responses := s.responses ++ [none], ci := s.ci + 1 })

/-- R63: RDS256 delivers the word its index names and changes nothing. -/
def Obligations.Rds256Result : Prop :=
  CodeRuns 0xB0#8 (fun _ => .rds256 0) ∧ CodeRuns 0xB1#8 (fun _ => .rds256 1) ∧
  CodeRuns 0xB2#8 (fun _ => .rds256 2) ∧ CodeRuns 0xB3#8 (fun _ => .rds256 3) ∧
  (∀ s, exec (.rds256 0) s = .next { s with responses := s.responses ++ [some s.s256.w0], ci := s.ci + 1 }) ∧
  (∀ s, exec (.rds256 1) s = .next { s with responses := s.responses ++ [some s.s256.w1], ci := s.ci + 1 }) ∧
  (∀ s, exec (.rds256 2) s = .next { s with responses := s.responses ++ [some s.s256.w2], ci := s.ci + 1 }) ∧
  (∀ s, exec (.rds256 3) s = .next { s with responses := s.responses ++ [some s.s256.w3], ci := s.ci + 1 })

/-- R69: TOFLOAT delivers `F64BITS(wdata >> 11)` and changes nothing. -/
def Obligations.ToFloatResult : Prop :=
  CodeRuns 0xC0#8 (fun w => .toFloat w) ∧
  ∀ s v, exec (.toFloat v) s = .next { s with
    responses := s.responses ++ [some (f64Bits (v >>> 11).toNat)], ci := s.ci + 1 }

/-- R46, R73: every command completes in every state, adds one response entry and ends with `CI <- CI + 1`, leaving the
port as it is. -/
def Obligations.EveryCommandCompletes : Prop :=
  ∀ (i : Instr) (s : State), ∃ t r, exec i s = .next t ∧ t.ci = s.ci + 1 ∧ t.responses = s.responses ++ [r] ∧
    r.isSome = i.deliversRdata ∧ t.port = s.port ∧ t.resets = s.resets

/-! ### The arithmetic and the generators' functions -/

/-- R7: the arithmetic primitives. -/
def Obligations.ArithmeticPrimitives : Prop :=
  (∀ a b : Word, (wrapAdd a b).toNat = (a.toNat + b.toNat) % 2 ^ 64) ∧
  (∀ (a b : Word) (i : Nat), i < 64 → bit (a ^^^ b) i = (bit a i != bit b i)) ∧
  (∀ (a b : Word) (i : Nat), i < 64 → bit (a ||| b) i = (bit a i || bit b i)) ∧
  (∀ (a : Word) (k : Nat), 0 < k → k < 64 → (a <<< k).toNat = a.toNat * 2 ^ k % 2 ^ 64) ∧
  (∀ (a : Word) (k : Nat), 0 < k → k < 64 → (a >>> k).toNat = a.toNat / 2 ^ k) ∧
  (∀ (x : Word) (k i : Nat), 0 < k → k < 64 → i < 64 → bit (rotl x k) ((i + k) % 64) = bit x i) ∧
  (∀ (x : Word) (i : Nat), i < 64 → (bit x i = true ↔ (x.toNat / 2 ^ i) % 2 = 1))

/-- R47: `OUT128` and `STEP128`, as equations and bit by bit, with the rule's corner cases. -/
def Obligations.Step128Bitwise : Prop :=
  (∀ s : Words2, (out128 s).toNat = (s.w0.toNat + s.w1.toNat) % 2 ^ 64) ∧
  (∀ s : Words2, step128 s =
    { w0 := s.w0.rotateLeft 24 ^^^ (s.w0 ^^^ s.w1) ^^^ ((s.w0 ^^^ s.w1) <<< 16)
      w1 := (s.w0 ^^^ s.w1).rotateLeft 37 }) ∧
  (∀ (s : Words2) (i : Nat), i < 64 →
    bit (step128 s).w0 i =
      ((bit s.w0 ((i + 40) % 64) != bit (s.w0 ^^^ s.w1) i) != (decide (16 ≤ i) && bit (s.w0 ^^^ s.w1) (i - 16))) ∧
    bit (step128 s).w1 i = bit (s.w0 ^^^ s.w1) ((i + 27) % 64)) ∧
  (∀ v : Word, step128 { w0 := v, w1 := v } = { w0 := v.rotateLeft 24, w1 := 0#64 }) ∧
  step128 zero128 = zero128 ∧ out128 zero128 = 0#64 ∧
  step128 { w0 := 1#64, w1 := 2#64 } = { w0 := 0x0000000001030003#64, w1 := 0x0000006000000000#64 } ∧
  out128 { w0 := 1#64, w1 := 2#64 } = 3#64

/-- R57: `OUT256` and `STEP256` in closed form over the old words, with the rule's corner cases. -/
def Obligations.Step256ClosedForm : Prop :=
  (∀ s : Words4, (out256 s).toNat = (s.w0.toNat + s.w3.toNat) % 2 ^ 64) ∧
  (∀ s : Words4, step256 s =
    { w0 := s.w0 ^^^ s.w1 ^^^ s.w3
      w1 := s.w0 ^^^ s.w1 ^^^ s.w2
      w2 := s.w0 ^^^ s.w2 ^^^ (s.w1 <<< 17)
      w3 := (s.w1 ^^^ s.w3).rotateLeft 45 }) ∧
  step256 zero256 = zero256 ∧
  step256 { w0 := 1#64, w1 := 0#64, w2 := 0#64, w3 := 0#64 } = { w0 := 1#64, w1 := 1#64, w2 := 1#64, w3 := 0#64 } ∧
  step256 { w0 := 0#64, w1 := 1#64, w2 := 0#64, w3 := 0#64 } =
    { w0 := 1#64, w1 := 1#64, w2 := 0x20000#64, w3 := 0x0000200000000000#64 } ∧
  step256 { w0 := 0#64, w1 := 0#64, w2 := 1#64, w3 := 0#64 } = { w0 := 0#64, w1 := 1#64, w2 := 1#64, w3 := 0#64 } ∧
  step256 { w0 := 0#64, w1 := 0#64, w2 := 0#64, w3 := 1#64 } =
    { w0 := 1#64, w1 := 0#64, w2 := 0#64, w3 := 0x0000200000000000#64 } ∧
  step256 { w0 := 1#64, w1 := 2#64, w2 := 3#64, w3 := 4#64 } =
    { w0 := 7#64, w1 := 0#64, w2 := 0x0000000000040002#64, w3 := 0x0000C00000000000#64 } ∧
  out256 { w0 := 1#64, w1 := 2#64, w2 := 3#64, w3 := 4#64 } = 5#64

/-- The six polynomial words, their one-bit counts and their lowest and highest set bit positions (R15, R16). -/
def Obligations.JumpPolynomialWords : Prop :=
  Config.jp128 = { w0 := 0xdf900294d8f554a5#64, w1 := 0x170865df4b3201fc#64 } ∧
  Config.jp256 =
    { w0 := 0x180ec6d33cfd0aba#64, w1 := 0xd5a61266f0c9392c#64
      w2 := 0xa9582618e03fc9aa#64, w3 := 0x39abdc4529b1661c#64 } ∧
  ((List.range 64).filter (bit Config.jp128.w0)).length = 30 ∧
  ((List.range 64).filter (bit Config.jp128.w1)).length = 30 ∧
  ((List.range 64).filter (bit Config.jp256.w0)).length = 32 ∧
  ((List.range 64).filter (bit Config.jp256.w1)).length = 30 ∧
  ((List.range 64).filter (bit Config.jp256.w2)).length = 29 ∧
  ((List.range 64).filter (bit Config.jp256.w3)).length = 31 ∧
  ((List.range 128).filter polyBit128).take 8 = [0, 2, 5, 7, 10, 12, 14, 16] ∧
  ((List.range 128).filter polyBit128).drop 56 = [120, 121, 122, 124] ∧
  ((List.range 256).filter polyBit256).take 8 = [1, 3, 4, 5, 7, 9, 11, 16] ∧
  ((List.range 256).filter polyBit256).drop 118 = [248, 251, 252, 253]

/-- R49: `JUMPFN128` is the loop over the bit positions 0 to 127 in this order, the two words taken in index order, the
accumulation before the step and the step whether or not the bit was set. -/
def Obligations.JumpFn128IsTheLoop : Prop :=
  ∀ s : Words2, jumpFn128 s =
    ((List.range 128).foldl
      (fun (p : Words2 × Words2) b =>
        (if (Config.jp128.w1 ++ Config.jp128.w0).getLsbD b then xor128 p.1 p.2 else p.1, step128 p.2))
      (zero128, s)).1

/-- R59: `JUMPFN256` is the loop over the bit positions 0 to 255 in this order. -/
def Obligations.JumpFn256IsTheLoop : Prop :=
  ∀ s : Words4, jumpFn256 s =
    ((List.range 256).foldl
      (fun (p : Words4 × Words4) b =>
        (if (Config.jp256.w3 ++ Config.jp256.w2 ++ Config.jp256.w1 ++ Config.jp256.w0).getLsbD b
          then xor256 p.1 p.2 else p.1, step256 p.2))
      (zero256, s)).1

/-- R54: `STEP128` is linear over GF(2) and a bijection, so no non-zero state steps to zero; `OUT128` is not linear. -/
def Obligations.Step128LinearBijection : Prop :=
  (∀ p q, step128 (xor128 p q) = xor128 (step128 p) (step128 q)) ∧
  Function.Bijective step128 ∧ (∀ p, step128 p = zero128 ↔ p = zero128) ∧
  ∃ p q, out128 (xor128 p q) ≠ out128 p ^^^ out128 q

/-- R64: `STEP256` is linear over GF(2) and a bijection, so no non-zero state steps to zero; `OUT256` is not linear. -/
def Obligations.Step256LinearBijection : Prop :=
  (∀ p q, step256 (xor256 p q) = xor256 (step256 p) (step256 q)) ∧
  Function.Bijective step256 ∧ (∀ p, step256 p = zero256 ↔ p = zero256) ∧
  ∃ p q, out256 (xor256 p q) ≠ out256 p ^^^ out256 q

/-- R55: `JUMPFN128` is the exclusive-or of the 60 iterates of `STEP128` its polynomial selects; it is linear, commutes
with `STEP128`, and is not `STEP128^128`. -/
def Obligations.JumpFn128IsPolynomialInStep : Prop :=
  (∀ s, jumpFn128 s =
    (((List.range 128).filter fun b => (Config.jp128.w1 ++ Config.jp128.w0).getLsbD b).map
      fun b => step128^[b] s).foldl xor128 zero128) ∧
  ((List.range 128).filter fun b => (Config.jp128.w1 ++ Config.jp128.w0).getLsbD b).length = 60 ∧
  (∀ p q, jumpFn128 (xor128 p q) = xor128 (jumpFn128 p) (jumpFn128 q)) ∧
  (∀ s, jumpFn128 (step128 s) = step128 (jumpFn128 s)) ∧
  step128^[128] { w0 := 1#64, w1 := 2#64 } = { w0 := 0x21C1D4A8DEA4EB18#64, w1 := 0x270E315B49A695CE#64 } ∧
  jumpFn128 { w0 := 1#64, w1 := 2#64 } = { w0 := 0x66FBD4BE1DF0A7B5#64, w1 := 0x830C3DDBB4AA3172#64 }

/-- R65: `JUMPFN256` is the exclusive-or of the 122 iterates of `STEP256` its polynomial selects; it is linear, commutes
with `STEP256`, and is not `STEP256^256`. -/
def Obligations.JumpFn256IsPolynomialInStep : Prop :=
  (∀ s, jumpFn256 s =
    (((List.range 256).filter fun b =>
        (Config.jp256.w3 ++ Config.jp256.w2 ++ Config.jp256.w1 ++ Config.jp256.w0).getLsbD b).map
      fun b => step256^[b] s).foldl xor256 zero256) ∧
  ((List.range 256).filter fun b =>
    (Config.jp256.w3 ++ Config.jp256.w2 ++ Config.jp256.w1 ++ Config.jp256.w0).getLsbD b).length = 122 ∧
  (∀ p q, jumpFn256 (xor256 p q) = xor256 (jumpFn256 p) (jumpFn256 q)) ∧
  (∀ s, jumpFn256 (step256 s) = step256 (jumpFn256 s)) ∧
  step256^[256] { w0 := 1#64, w1 := 2#64, w2 := 3#64, w3 := 4#64 } =
    { w0 := 0x724645A5A9DE4809#64, w1 := 0x9D1368C84F47A611#64
      w2 := 0x16312D30AFA2AC7C#64, w3 := 0x9783F09D6A060ECC#64 } ∧
  jumpFn256 { w0 := 1#64, w1 := 2#64, w2 := 3#64, w3 := 4#64 } =
    { w0 := 0x8C7A153956B5F3D1#64, w1 := 0x701F1A713401D85E#64
      w2 := 0x6527F66A65469085#64, w3 := 0x8386B786C4408050#64 }

/-- R56: the jump distance of G128: JUMP128 leaves the state that 2^64 NEXT128 commands would leave. -/
def Obligations.Jump128Distance : Prop := ∀ s, jumpFn128 s = step128^[2 ^ 64] s

/-- R66: the jump distance of G256 is 2^128 steps. -/
def Obligations.Jump256Distance : Prop := ∀ s, jumpFn256 s = step256^[2 ^ 128] s

/-- R90: an all-zero generator is left only by an LDS (or reset), and a generator that is not all-zero never becomes
all-zero but by an LDS: every other command keeps which of the two it is. NEXT from all-zero returns 0. -/
def Obligations.ZeroStateKeptByEveryCommandButLoads : Prop :=
  (∀ (i : Instr) (s : State), (∀ k v, i ≠ .lds128 k v) →
    ∃ t, exec i s = .next t ∧ (t.s128 = zero128 ↔ s.s128 = zero128)) ∧
  (∀ (i : Instr) (s : State), (∀ k v, i ≠ .lds256 k v) →
    ∃ t, exec i s = .next t ∧ (t.s256 = zero256 ↔ s.s256 = zero256)) ∧
  (∀ s : State, s.s128 = zero128 →
    ∃ t, exec .next128 s = .next t ∧ t.responses = s.responses ++ [some 0#64]) ∧
  (∀ s : State, s.s256 = zero256 →
    ∃ t, exec .next256 s = .next t ∧ t.responses = s.responses ++ [some 0#64])

/-! ### The float converter -/

/-- R67: `UNITVAL` as an exact rational, what does not influence it, and its extreme values. -/
def Obligations.UnitValueOfWord : Prop :=
  (∀ v : Word, unitVal v = ((v.toNat / 2 ^ 11 : Nat) : ℚ) / 9007199254740992) ∧
  (∀ v : Word, v.toNat / 2 ^ 11 ≤ 2 ^ 53 - 1) ∧
  (∀ v w : Word, v >>> 11 = w >>> 11 → unitVal v = unitVal w) ∧
  (∀ v : Word, unitVal v = 0 ↔ v.toNat ≤ 0x7FF) ∧
  (∀ v : Word, unitVal v = 1 / 2 ^ 53 ↔ 0x800 ≤ v.toNat ∧ v.toNat ≤ 0xFFF) ∧
  (∀ v : Word, unitVal v = 1 - 1 / 2 ^ 53 ↔ 0xFFFFFFFFFFFFF800 ≤ v.toNat) ∧
  unitVal 0x8000000000000000#64 = 1 / 2

/-- R68: `F64BITS(k)` is the pattern whose exponent field is `970 + p` and whose fraction is `(k − 2^p) × 2^(52 − p)`,
`p` the highest set bit of `k`, and it denotes exactly `k × 2^-53`. -/
def Obligations.FloatBitsExact : Prop :=
  f64Bits 0 = 0#64 ∧
  (∀ k p : Nat, k < 2 ^ 53 → 2 ^ p ≤ k → k < 2 ^ (p + 1) →
    (f64Bits k).toNat = (970 + p) * 2 ^ 52 + (k - 2 ^ p) * 2 ^ (52 - p) ∧
    f64Exp (f64Bits k) = 970 + p ∧ f64Frac (f64Bits k) = (k - 2 ^ p) * 2 ^ (52 - p) ∧
    (f64Bits k).getLsbD 63 = false) ∧
  (∀ k : Nat, k < 2 ^ 53 → f64Value (f64Bits k) = some ((k : ℚ) / 2 ^ 53))

/-- R70: every TOFLOAT result has sign 0 and is all zero or has an exponent field of 970 to 1022; the value it denotes is
at least 0 and below 1. -/
def Obligations.FloatRange : Prop :=
  ∀ v : Word,
    (f64Bits (topBits v)).getLsbD 63 = false ∧
    (f64Bits (topBits v) = 0#64 ∨ 970 ≤ f64Exp (f64Bits (topBits v)) ∧ f64Exp (f64Bits (topBits v)) ≤ 1022) ∧
    ∃ q, f64Value (f64Bits (topBits v)) = some q ∧ 0 ≤ q ∧ q < 1 ∧ q = unitVal v

/-- R72: two inputs have the same result exactly when their top 53 bits agree, so each of the 2^53 results is the image
of 2048 inputs; the conversion is monotonic in both the value and the pattern; and `k` can be read back. -/
def Obligations.FloatConversionFibresAndOrder : Prop :=
  (∀ v w : Word, f64Bits (topBits v) = f64Bits (topBits w) ↔ v >>> 11 = w >>> 11) ∧
  (∀ k low : Nat, k < 2 ^ 53 → low < 2048 → topBits (BitVec.ofNat 64 (k * 2048 + low)) = k) ∧
  (∀ v w : Word, v.toNat ≤ w.toNat → unitVal v ≤ unitVal w) ∧
  (∀ v w : Word, v.toNat ≤ w.toNat → (f64Bits (topBits v)).toNat ≤ (f64Bits (topBits w)).toNat) ∧
  (∀ v : Word, 970 ≤ f64Exp (f64Bits (topBits v)) →
    topBits v = (2 ^ 52 + f64Frac (f64Bits (topBits v))) / 2 ^ (1022 - f64Exp (f64Bits (topBits v))))

/-! ### The jump engines -/

/-- R51: the jump of G128 in micro-steps. From an idle instance with JUMP128 presented, and only commands behind it: after
the start and `k` micro-steps, for every `k` up to 127, the jump is in progress with `JC128 = k`, the accumulator holding
what the first `k` bit positions select and `S128` stepped `k` times, and nothing else has changed; after exactly 128 the
state is the one the atomic command leaves. The model's own in this: that the start is a step by itself and the command
completes at the last position (log 6), and that the atomic command leaves the hidden registers as the engine does
(log 5). -/
def Obligations.JumpEngine128EqualsCommand : Prop :=
  ∀ (s : State) (w : Word) (rest : List Input), Idle s → s.port = .command { cmd := 0x50#8, wdata := w } :: rest →
    (∀ x ∈ rest, ∃ c, x = .command c) →
    (∀ k, k < 128 → runWith microStep (k + 1) s = .next { s with
      port := rest, busy128 := true, jc128 := BitVec.ofNat 7 k
      acc128 := jumpLoop128 k 0 zero128 s.s128, s128 := step128^[k] s.s128 }) ∧
    runWith microStep 129 s = exec .jump128 { s with port := rest }

/-- R61: the jump of G256 in micro-steps, 256 of them. The model's own in this: log 5 and log 6, as for G128. -/
def Obligations.JumpEngine256EqualsCommand : Prop :=
  ∀ (s : State) (w : Word) (rest : List Input), Idle s → s.port = .command { cmd := 0x90#8, wdata := w } :: rest →
    (∀ x ∈ rest, ∃ c, x = .command c) →
    (∀ k, k < 256 → runWith microStep (k + 1) s = .next { s with
      port := rest, busy256 := true, jc256 := BitVec.ofNat 8 k
      acc256 := jumpLoop256 k 0 zero256 s.s256, s256 := step256^[k] s.s256 }) ∧
    runWith microStep 257 s = exec .jump256 { s with port := rest }

/-- Every run of the atomic machine over commands is a run of the machine of micro-steps that ends in the same state, or
with the same refusal; the two machines cannot be told apart by a caller (R50, R51, R60, R61, R92). That the same state is
reached in the hidden registers too is log 5, and when a jump's command enters the record is log 6, both the model's. -/
def Obligations.MicroStepMachineRefinesAtomic : Prop :=
  ∀ (s : State) (n : Nat), Idle s → (∀ x ∈ s.port, ∃ c, x = .command c) →
    ∃ m, n ≤ m ∧ runWith microStep m s = runWith step n s

/-- The same whatever the caller presents, resets and idle slots included: the run of the atomic machine that takes all of
the inputs, or is refused, ends as some run of the machine of micro-steps does. A reset inside a jump and a reset after it
leave the same, an idle slot during a jump and one after it too (R86, R87, R92). The model's own in this: log 1 (idle
slots), log 5, log 6, log 8 (the record starts anew at a reset) and log 21 (no reset overtakes a waiting command). -/
def Obligations.MicroStepRunEndsAsAtomicRun : Prop :=
  ∀ s : State, Idle s → ∃ m, runWith microStep m s = runWith step s.port.length s

/-- A reset that lands inside a jump of the machine of micro-steps abandons it, whatever its bit position (R87, R92), and
the next command has index 0 (R18). That the run's record starts anew and the inputs behind the reset stay is the model's
reading, log 8. -/
def Obligations.ResetAbandonsJump : Prop :=
  ∀ (s : State) (rest : List Input), s.port = .reset :: rest →
    ∃ t, microStep s = .next t ∧ Idle t ∧ t.ci = 0 ∧ t.responses = [] ∧ t.port = rest

/-! ### Invariants and whole-machine rules -/

/-- The reset state has the invariant. -/
def Obligations.ResetHasRunInvariant : Prop := RunInv State.reset

/-- Every step keeps it: as many response entries as commands completed, and never two jumps at once; and an idle state
stays idle, a command being atomic (R28, R31, R37, R46). -/
def Obligations.StepKeepsRunInvariant : Prop :=
  ∀ s t, step s = .next t → (RunInv s → RunInv t) ∧ (Idle s → Idle t)

/-- Every step of the machine of micro-steps keeps the invariant (R31, R92). -/
def Obligations.MicroStepKeepsRunInvariant : Prop :=
  ∀ s t, RunInv s → microStep s = .next t → RunInv t

/-- R73: while the caller presents no reserved code, nothing stops the instance, whatever state it is in. -/
def Obligations.LegalInputsNeverStop : Prop :=
  ∀ (s : State) (n : Nat), (∀ x ∈ s.port, legalInput x = true) → ∃ t, runWith step n s = .next t

/-- R84: a command to one generator leaves every word of the other as it is, RDS and TOFLOAT change no state word. -/
def Obligations.CrossWidthIndependence : Prop :=
  ∀ (i : Instr) (s : State), ∃ t, exec i s = .next t ∧
    (i.unit ≠ .g256 → t.s256 = s.s256 ∧ t.acc256 = s.acc256 ∧ t.jc256 = s.jc256 ∧ t.busy256 = s.busy256) ∧
    (i.unit ≠ .g128 → t.s128 = s.s128 ∧ t.acc128 = s.acc128 ∧ t.jc128 = s.jc128 ∧ t.busy128 = s.busy128) ∧
    (∀ k, i = .rds128 k → t.s128 = s.s128) ∧ (∀ k, i = .rds256 k → t.s256 = s.s256)

/-- What a command does to one generator, and what it answers unless it is the other generator's, does not depend on the
other generator's words (R84, R36). -/
def Obligations.ResponsesBlindToOtherGenerator : Prop :=
  (∀ (i : Instr) (s : State) (x : Words4), ∃ t u, exec i s = .next t ∧ exec i { s with s256 := x } = .next u ∧
    u.s128 = t.s128 ∧ (i.unit ≠ .g256 → u.responses = t.responses)) ∧
  (∀ (i : Instr) (s : State) (x : Words2), ∃ t u, exec i s = .next t ∧ exec i { s with s128 := x } = .next u ∧
    u.s256 = t.s256 ∧ (i.unit ≠ .g128 → u.responses = t.responses))

/-- R31 (d): the k-th NEXT128 issued, with no LDS128 or JUMP128 between, returns the k-th output of the stream from the
state it started with, whatever commands to G256 or FC are interleaved; and the run leaves the state stepped as often. -/
def Obligations.StreamOfNext128 : Prop :=
  ∀ (s : State) (is : List Instr), Quiet s → (∀ k v, .lds128 k v ∉ is) → .jump128 ∉ is →
    ∃ t, runWith step is.length { s with port := commandsOf is } = .next t ∧
      t.s128 = step128^[is.count .next128] s.s128 ∧
      next128Responses is (t.responses.drop s.responses.length) =
        (List.range (is.count .next128)).map fun k => some (out128 (step128^[k] s.s128))

/-- The same for the stream of NEXT256. -/
def Obligations.StreamOfNext256 : Prop :=
  ∀ (s : State) (is : List Instr), Quiet s → (∀ k v, .lds256 k v ∉ is) → .jump256 ∉ is →
    ∃ t, runWith step is.length { s with port := commandsOf is } = .next t ∧
      t.s256 = step256^[is.count .next256] s.s256 ∧
      next256Responses is (t.responses.drop s.responses.length) =
        (List.range (is.count .next256)).map fun k => some (out256 (step256^[k] s.s256))

/-- A caller that loads every word of a generator before it uses it never sees what the registers held before: two
instances that differ in any register and in how often they have been reset, with the same record and the same inputs,
resets among them or not, give the same responses, the same index and the same refusal at every step (R23, R89). -/
def Obligations.LoadedRunsHideUnspecifiedContent : Prop :=
  ∀ (s u : State) (n : Nat), Idle s → Idle u → u.port = s.port → u.ci = s.ci → u.responses = s.responses →
    LoadsBeforeUse Loaded.none s.port →
    (∀ t, runWith step n s = .next t →
      ∃ v, runWith step n u = .next v ∧ v.responses = t.responses ∧ v.ci = t.ci ∧ v.port = t.port) ∧
    (∀ r, runWith step n s = .refused r → runWith step n u = .refused r)

/-- A load is read back by the next read of that word and does not disturb the other words; reading is repeatable
(R28, R31, R52, R53, R62, R63). -/
def Obligations.LoadThenReadReturnsWord : Prop :=
  (∀ (s : State) (i j : Fin 2) (v : Word), ∃ t u, exec (.lds128 i v) s = .next t ∧ exec (.rds128 j) t = .next u ∧
    u.responses = s.responses ++ [none, some (if j = i then v else readS128 s j)] ∧ u.s128 = t.s128) ∧
  (∀ (s : State) (i j : Fin 4) (v : Word), ∃ t u, exec (.lds256 i v) s = .next t ∧ exec (.rds256 j) t = .next u ∧
    u.responses = s.responses ++ [none, some (if j = i then v else readS256 s j)] ∧ u.s256 = t.s256)

/-- A run of `k` commands from an idle instance, whatever the caller has behind it that is no command of the run (idle
slots; a reset and the next run): after `k` steps the run has ended, `CI` has grown by `k`, there are `k` more response
entries, and the list of the run's result has one more response for each command that delivers one (R31, R46, R95). From
then on, until a reset, every step leaves the run ended and its result as it is (R86, R95). That what stands behind a reset
belongs to the next run is log 8. -/
def Obligations.RunOfCommandsEnds : Prop :=
  (∀ (s : State) (cs : List Command) (rest : List Input), Idle s → (∀ c ∈ cs, legalCode c = true) →
    commandWaiting rest = false →
    ∃ t, runWith step cs.length { s with port := cs.map .command ++ rest } = .next t ∧ ended t = true ∧ t.port = rest ∧
      t.ci = s.ci + cs.length ∧ t.responses.length = s.responses.length + cs.length ∧
      (runResult t).responses.length = (runResult s).responses.length + cs.countP delivers) ∧
  (∀ s : State, ended s = true → (∀ rest, s.port ≠ .reset :: rest) →
    ∃ t, step s = .next t ∧ ended t = true ∧ runResult t = runResult s ∧ t.ci = s.ci)

/-- A sequence of assembler lines runs to its end if it is well-formed as R44 says. That an ill-formed one, to which R44
gives no meaning, is refused as `illFormedLine` when the line is reached is the model's reading, log 15. -/
def Obligations.WellFormedLinesRun : Prop :=
  ∀ (s : State) (p : List AsmLine), Quiet s →
    (AsmLine.programWf p = true → ∃ t, runProgram p s = .next t ∧ Quiet t ∧ t.ci = s.ci + p.length) ∧
    (AsmLine.programWf p = false → runProgram p s = .refused .illFormedLine)

/-- R83: lane `n` is the seed jumped `n` times, from whatever state the instance was in: SEED128 then LANE128 n, and
SEED256 then LANE256 n. -/
def Obligations.SeedThenLaneLeavesLaneState : Prop :=
  (∀ (s : State) (v0 v1 : Word) (n : Nat), Quiet s →
    ∃ t, runSource [.pseudo (.seed128 (.lit v0.toNat) (.lit v1.toNat)), .pseudo (.lane128 n)] s = .next t ∧ Quiet t ∧
      t.s128 = lane128 { w0 := v0, w1 := v1 } n ∧ t.s256 = s.s256) ∧
  (∀ (s : State) (v0 v1 v2 v3 : Word) (n : Nat), Quiet s →
    ∃ t, runSource [.pseudo (.seed256 (.lit v0.toNat) (.lit v1.toNat) (.lit v2.toNat) (.lit v3.toNat)),
        .pseudo (.lane256 n)] s = .next t ∧ Quiet t ∧
      t.s256 = lane256 { w0 := v0, w1 := v1, w2 := v2, w3 := v3 } n ∧ t.s128 = s.s128)

/-- R45: NEXTF128 delivers two responses, the RawOutput and then the UnitFloat bits of it; NEXTF256 likewise. -/
def Obligations.NextThenToFloatOfLast : Prop :=
  (∀ s : State, Quiet s → ∃ t, runSource [.pseudo .nextF128] s = .next t ∧ t.s128 = step128 s.s128 ∧
    t.responses = s.responses ++ [some (out128 s.s128), some (f64Bits (topBits (out128 s.s128)))]) ∧
  (∀ s : State, Quiet s → ∃ t, runSource [.pseudo .nextF256] s = .next t ∧ t.s256 = step256 s.s256 ∧
    t.responses = s.responses ++ [some (out256 s.s256), some (f64Bits (topBits (out256 s.s256)))])

/-- R36: instances share nothing: in a run of a system of any number of instances, in any interleaving, each instance ends
where it ends alone with its own events: in the same state with the same responses, or stopped at the same reserved code,
whatever becomes of the others (R74). That a stopped instance stays as it is is log 16. -/
def Obligations.InterleavingsGiveSoloRuns : Prop :=
  ∀ (n : Nat) (es : List (Fin n × CoreEvent)) (y : System n) (k : Fin n),
    (systemEvents es y).cores[k] = coreEvents (eventsOf k es) y.cores[k]
end

