-- ==== Sys2Proof/Laws/Operands.lean ====
section
/-! SUPPORT. What the shared operations over words do: read after write, the exclusive-or of arrays, wrapping addition. -/

namespace Sys2Proof.Machine

@[simp] theorem word128_setWord128_same (r : Words2) (i : Fin 2) (v : Word) :
    word128 (setWord128 r i v) i = v := by
  fin_cases i <;> rfl

theorem word128_setWord128_other (r : Words2) (i j : Fin 2) (v : Word) (h : j ≠ i) :
    word128 (setWord128 r i v) j = word128 r j := by
  fin_cases i <;> fin_cases j <;> first | rfl | exact absurd rfl h

@[simp] theorem word256_setWord256_same (r : Words4) (i : Fin 4) (v : Word) :
    word256 (setWord256 r i v) i = v := by
  fin_cases i <;> rfl

theorem word256_setWord256_other (r : Words4) (i j : Fin 4) (v : Word) (h : j ≠ i) :
    word256 (setWord256 r i v) j = word256 r j := by
  fin_cases i <;> fin_cases j <;> first | rfl | exact absurd rfl h

/-- Two arrays with the same word at every index are the same. -/
theorem words2_eq_of_word128 {a b : Words2} (h : ∀ i, word128 a i = word128 b i) : a = b :=
  Words2.ext (h 0) (h 1)

/-- Two arrays with the same word at every index are the same. -/
theorem words4_eq_of_word256 {a b : Words4} (h : ∀ i, word256 a i = word256 b i) : a = b :=
  Words4.ext (h 0) (h 1) (h 2) (h 3)

@[simp] theorem xor128_w0 (a b : Words2) : (xor128 a b).w0 = a.w0 ^^^ b.w0 := rfl
@[simp] theorem xor128_w1 (a b : Words2) : (xor128 a b).w1 = a.w1 ^^^ b.w1 := rfl
@[simp] theorem xor256_w0 (a b : Words4) : (xor256 a b).w0 = a.w0 ^^^ b.w0 := rfl
@[simp] theorem xor256_w1 (a b : Words4) : (xor256 a b).w1 = a.w1 ^^^ b.w1 := rfl
@[simp] theorem xor256_w2 (a b : Words4) : (xor256 a b).w2 = a.w2 ^^^ b.w2 := rfl
@[simp] theorem xor256_w3 (a b : Words4) : (xor256 a b).w3 = a.w3 ^^^ b.w3 := rfl

@[simp] theorem xor128_zero (a : Words2) : xor128 a zero128 = a := by ext1 <;> simp [zero128]
@[simp] theorem zero_xor128 (a : Words2) : xor128 zero128 a = a := by ext1 <;> simp [zero128]
@[simp] theorem xor128_self (a : Words2) : xor128 a a = zero128 := by ext1 <;> simp [zero128]
theorem xor128_comm (a b : Words2) : xor128 a b = xor128 b a := by ext1 <;> simp [BitVec.xor_comm]
theorem xor128_assoc (a b c : Words2) : xor128 (xor128 a b) c = xor128 a (xor128 b c) := by
  ext1 <;> simp [BitVec.xor_assoc]

@[simp] theorem xor256_zero (a : Words4) : xor256 a zero256 = a := by ext1 <;> simp [zero256]
@[simp] theorem zero_xor256 (a : Words4) : xor256 zero256 a = a := by ext1 <;> simp [zero256]
@[simp] theorem xor256_self (a : Words4) : xor256 a a = zero256 := by ext1 <;> simp [zero256]
theorem xor256_comm (a b : Words4) : xor256 a b = xor256 b a := by ext1 <;> simp [BitVec.xor_comm]
theorem xor256_assoc (a b c : Words4) : xor256 (xor256 a b) c = xor256 a (xor256 b c) := by
  ext1 <;> simp [BitVec.xor_assoc]

/-- The wrapping addition is the addition of 64-bit vectors. -/
theorem wrapAdd_eq_add (a b : Word) : wrapAdd a b = a + b := by
  apply BitVec.eq_of_toNat_eq
  simp [wrapAdd, exactSum, BitVec.toNat_add]

end Sys2Proof.Machine
end

