-- ==== Sys2Proof/Laws/Jump.lean ====
section
/-! SUPPORT. The jump loops: one more position at the end, the engines' micro-steps before the last, and linearity of
what they are built from. -/

namespace Sys2Proof.Machine

/-- Running `n` positions and then one more is running `n + 1`, the running state having been stepped `n` times. -/
theorem jumpLoop128_succ (n b : Nat) (a t : Words2) :
    jumpLoop128 (n + 1) b a t = accumulate128 (b + n) (jumpLoop128 n b a t) (step128^[n] t) := by
  induction n generalizing b a t with
  | zero => rfl
  | succ n ih =>
    rw [jumpLoop128, ih, Function.iterate_succ_apply, Nat.add_right_comm]
    rfl

/-- The same for G256. -/
theorem jumpLoop256_succ (n b : Nat) (a t : Words4) :
    jumpLoop256 (n + 1) b a t = accumulate256 (b + n) (jumpLoop256 n b a t) (step256^[n] t) := by
  induction n generalizing b a t with
  | zero => rfl
  | succ n ih =>
    rw [jumpLoop256, ih, Function.iterate_succ_apply, Nat.add_right_comm]
    rfl

/-- For the amounts CORE uses, `rotl` is the library's rotation. -/
theorem rotl_eq_rotateLeft (x : Word) (k : Nat) (h : k < 64) : rotl x k = x.rotateLeft k := by
  simp [rotl, BitVec.rotateLeft, BitVec.rotateLeftAux, Nat.mod_eq_of_lt h]

/-- A rotation distributes over exclusive-or. -/
theorem rotl_xor (x y : Word) (k : Nat) : rotl (x ^^^ y) k = rotl x k ^^^ rotl y k := by
  ext i hi
  simp only [rotl, BitVec.getElem_or, BitVec.getElem_xor, BitVec.getElem_shiftLeft, BitVec.getElem_ushiftRight,
    BitVec.getLsbD_xor]
  by_cases h : i < k
  · simp [h]
  · rcases Nat.eq_zero_or_pos k with rfl | hk
    · simp [BitVec.getLsbD_of_ge]
    · have hx : x.getLsbD (64 - k + i) = false := BitVec.getLsbD_of_ge x _ (by omega)
      have hy : y.getLsbD (64 - k + i) = false := BitVec.getLsbD_of_ge y _ (by omega)
      simp [h, hx, hy]

/-- A left shift distributes over exclusive-or. -/
theorem shiftLeft_xor (x y : Word) (k : Nat) : (x ^^^ y) <<< k = (x <<< k) ^^^ (y <<< k) := by
  ext i hi
  by_cases h : i < k <;> simp [h]

/-- `STEP256` in closed form over the old words (R57). -/
theorem step256_eq (s : Words4) : step256 s =
    { w0 := s.w0 ^^^ (s.w3 ^^^ s.w1), w1 := s.w1 ^^^ (s.w2 ^^^ s.w0)
      w2 := s.w2 ^^^ s.w0 ^^^ (s.w1 <<< 17), w3 := rotl (s.w3 ^^^ s.w1) 45 } := rfl

end Sys2Proof.Machine
end

