-- ==== Sys2Proof/Laws/Gf2.lean ====
section
/-! SUPPORT. Polynomials over GF(2) in a linear step, coded as natural numbers (bit `b` is the coefficient of the step
applied `b` times): evaluation, product, reduction and repeated squaring. It serves the rules that say what a
jump equals (R54 to R56, R64 to R66): a number evaluates to the same map as its remainder modulo a number that evaluates to
zero everywhere, so the step applied 2^k times is the evaluation of x squared k times modulo that number. -/

namespace Sys2Proof.Gf2

/-- A set with an exclusive-or and a step that distributes over it. -/
structure LinearStep (α : Type) where
  zero : α
  add  : α → α → α
  step : α → α
  add_zero  : ∀ a, add a zero = a
  add_comm  : ∀ a b, add a b = add b a
  add_assoc : ∀ a b c, add (add a b) c = add a (add b c)
  add_self  : ∀ a, add a a = zero
  step_add  : ∀ a b, step (add a b) = add (step a) (step b)

variable {α : Type} (S : LinearStep α)

namespace LinearStep

theorem zero_add (a : α) : S.add S.zero a = a := by rw [S.add_comm, S.add_zero]

theorem step_zero : S.step S.zero = S.zero := by
  have h := S.step_add S.zero S.zero
  rw [S.add_zero, S.add_self] at h
  exact h

theorem add_add_add_comm (a b c d : α) : S.add (S.add a b) (S.add c d) = S.add (S.add a c) (S.add b d) := by
  rw [S.add_assoc, ← S.add_assoc b c d, S.add_comm b c, S.add_assoc c b d, ← S.add_assoc a c]

/-- `a` if the bit is set, else zero. -/
def pick (b : Bool) (a : α) : α := if b then a else S.zero

theorem pick_add (b : Bool) (a c : α) : S.pick b (S.add a c) = S.add (S.pick b a) (S.pick b c) := by
  cases b <;> simp [pick, S.add_zero]

theorem pick_xor (b c : Bool) (a : α) : S.pick (b ^^ c) a = S.add (S.pick b a) (S.pick c a) := by
  cases b <;> cases c <;> simp [pick, S.add_zero, S.zero_add, S.add_self]

theorem step_pick (b : Bool) (a : α) : S.step (S.pick b a) = S.pick b (S.step a) := by
  cases b <;> simp [pick, S.step_zero]

/-- The exclusive-or of the iterates of the step that the lowest `n` bits of `p` select. -/
def eval : (n p : Nat) → α → α
  | 0, _, _ => S.zero
  | n + 1, p, s => S.add (S.pick (p.testBit 0) s) (eval n (p / 2) (S.step s))

theorem eval_zero (n : Nat) (s : α) : S.eval n 0 s = S.zero := by
  induction n generalizing s with
  | zero => rfl
  | succ n ih => simp [eval, ih, pick, S.add_zero]

theorem eval_add (n p : Nat) (s t : α) : S.eval n p (S.add s t) = S.add (S.eval n p s) (S.eval n p t) := by
  induction n generalizing p s t with
  | zero => simp [eval, S.add_zero]
  | succ n ih => rw [eval, eval, eval, S.step_add, ih, S.pick_add, S.add_add_add_comm]

theorem eval_step (n p : Nat) (s : α) : S.eval n p (S.step s) = S.step (S.eval n p s) := by
  induction n generalizing p s with
  | zero => simp [eval, S.step_zero]
  | succ n ih => rw [eval, eval, S.step_add, S.step_pick, ih]

theorem eval_of_zero (n p : Nat) : S.eval n p S.zero = S.zero := by
  have h := S.eval_add n p S.zero S.zero
  rw [S.add_zero, S.add_self] at h
  exact h

theorem eval_xor (n p q : Nat) (s : α) : S.eval n (p ^^^ q) s = S.add (S.eval n p s) (S.eval n q s) := by
  induction n generalizing p q s with
  | zero => simp [eval, S.add_zero]
  | succ n ih =>
    have h2 : (p ^^^ q) / 2 = p / 2 ^^^ q / 2 := by
      apply Nat.eq_of_testBit_eq
      intro i
      simp [Nat.testBit_div_two]
    rw [eval, eval, eval, h2, ih, Nat.testBit_xor, S.pick_xor, S.add_add_add_comm]

theorem eval_double (n p : Nat) (s : α) : S.eval (n + 1) (2 * p) s = S.eval n p (S.step s) := by
  simp [eval, pick, S.zero_add]

theorem eval_lift {n p : Nat} (k : Nat) (h : p < 2 ^ n) (s : α) : S.eval (n + k) p s = S.eval n p s := by
  induction n generalizing p s with
  | zero =>
    have : p = 0 := by omega
    subst this
    rw [S.eval_zero, S.eval_zero]
  | succ n ih =>
    rw [Nat.add_right_comm, eval, eval, ih (by omega)]

theorem eval_shift (n k p : Nat) (s : α) : S.eval (n + k) (p <<< k) s = S.eval n p (S.step^[k] s) := by
  induction k generalizing s with
  | zero => rfl
  | succ k ih =>
    rw [Nat.shiftLeft_succ, ← Nat.add_assoc, S.eval_double, ih, Function.iterate_succ_apply]

/-- The evaluation of a single bit is an iterate. -/
theorem eval_two_pow (n k : Nat) (s : α) : S.eval (1 + n + k) (1 <<< k) s = S.step^[k] s := by
  rw [S.eval_shift, S.eval_lift n (by decide)]
  simp [eval, pick, S.add_zero]

end LinearStep

/-- The product of the lowest `n` bits of `p` with `q`, without carries. -/
def mul : (n p q : Nat) → Nat
  | 0, _, _ => 0
  | n + 1, p, q => (if p.testBit 0 then q else 0) ^^^ mul n (p / 2) (2 * q)

theorem eval_mul (n m p q : Nat) (h : q < 2 ^ m) (s : α) :
    S.eval (m + n) (mul n p q) s = S.eval n p (S.eval m q s) := by
  induction n generalizing p q m s with
  | zero => simp [mul, S.eval_zero, LinearStep.eval]
  | succ n ih =>
    rw [mul, S.eval_xor, LinearStep.eval, ← S.eval_step, ← S.eval_double]
    have h2 : 2 * q < 2 ^ (m + 1) := by rw [Nat.pow_succ]; omega
    rw [← ih (m + 1) (p / 2) (2 * q) h2 s, show m + (n + 1) = m + 1 + n by omega]
    congr 1
    cases p.testBit 0
    · simp [S.eval_zero, LinearStep.pick]
    · simp only [if_true, LinearStep.pick]
      rw [Nat.add_assoc, S.eval_lift _ h]

theorem mul_lt (n m p q : Nat) (h : q < 2 ^ m) : mul n p q < 2 ^ (m + n) := by
  induction n generalizing p q m with
  | zero => simp [mul]
  | succ n ih =>
    rw [mul, show m + (n + 1) = m + 1 + n by omega]
    refine Nat.xor_lt_two_pow ?_ (ih (m + 1) _ _ (by rw [Nat.pow_succ]; omega))
    split
    · exact Nat.lt_of_lt_of_le h (Nat.pow_le_pow_right (by decide) (by omega))
    · exact Nat.two_pow_pos _

/-- The remainder of `a` modulo `P` of degree `d`, taking away the bits `d + k - 1` down to `d`. -/
def reduce (P d : Nat) : (k a : Nat) → Nat
  | 0, a => a
  | k + 1, a => reduce P d k (if a.testBit (d + k) then a ^^^ (P <<< k) else a)

theorem eval_reduce {P d : Nat} (hP : P < 2 ^ (d + 1)) (hz : ∀ s, S.eval (d + 1) P s = S.zero) (k n a : Nat) (s : α) :
    S.eval (d + 1 + k + n) (reduce P d k a) s = S.eval (d + 1 + k + n) a s := by
  induction k generalizing a n with
  | zero => rfl
  | succ k ih =>
    have h := ih (n + 1) (if a.testBit (d + k) then a ^^^ (P <<< k) else a)
    rw [show d + 1 + (k + 1) + n = d + 1 + k + (n + 1) by omega, reduce, h]
    split
    · rw [S.eval_xor, show d + 1 + k + (n + 1) = d + 1 + (n + 1) + k by omega, S.eval_shift,
        S.eval_lift (n + 1) hP, hz, S.add_zero]
    · rfl

theorem reduce_lt {P d : Nat} (hP : P < 2 ^ (d + 1)) (hd : P.testBit d = true) (k a : Nat) (ha : a < 2 ^ (d + k)) :
    reduce P d k a < 2 ^ d := by
  induction k generalizing a with
  | zero => simpa [reduce] using ha
  | succ k ih =>
    refine ih _ (Nat.lt_pow_two_of_testBit _ fun i hi => ?_)
    have high : d + k < i → a.testBit i = false ∧ (P <<< k).testBit i = false := by
      intro h
      refine ⟨Nat.testBit_lt_two_pow (Nat.lt_of_lt_of_le ha (Nat.pow_le_pow_right (by decide) (by omega))), ?_⟩
      rw [Nat.testBit_shiftLeft,
        Nat.testBit_lt_two_pow (Nat.lt_of_lt_of_le hP (Nat.pow_le_pow_right (by decide) (by omega))), Bool.and_false]
    rcases Nat.lt_or_eq_of_le hi with h | rfl
    · split <;> simp [high h]
    · split
      · next hb => simp [hb, hd]
      · next hb => simpa using hb

/-- `x` squared `k` times modulo `P` of degree `d`, as a number. -/
def squared (P d : Nat) : Nat → Nat
  | 0 => 2
  | k + 1 => reduce P d d (mul d (squared P d k) (squared P d k))

theorem squared_lt {P d : Nat} (hP : P < 2 ^ (d + 1)) (hd : P.testBit d = true) (h2 : 2 ≤ d) (k : Nat) :
    squared P d k < 2 ^ d := by
  induction k with
  | zero => exact Nat.lt_of_lt_of_le (by decide : 2 < 2 ^ 2) (Nat.pow_le_pow_right (by decide) h2)
  | succ k ih => exact reduce_lt hP hd d _ (mul_lt d d _ _ ih)

/-- Where `P` evaluates to zero everywhere, the step applied 2^k times is the evaluation of `x` squared `k` times. -/
theorem eval_squared {P d : Nat} (hP : P < 2 ^ (d + 1)) (hd : P.testBit d = true) (h2 : 2 ≤ d)
    (hz : ∀ s, S.eval (d + 1) P s = S.zero) (k : Nat) (s : α) :
    S.eval d (squared P d k) s = S.step^[2 ^ k] s := by
  induction k generalizing s with
  | zero =>
    have h := S.eval_two_pow (d - 2) 1 s
    rwa [show 1 + (d - 2) + 1 = d by omega] at h
  | succ k ih =>
    have hk := squared_lt hP hd h2 k
    have hm := eval_mul S d d (squared P d k) (squared P d k) hk s
    have hr := eval_reduce S hP hz d 0 (mul d (squared P d k) (squared P d k)) s
    rw [ih, ih, ← Function.iterate_add_apply, show 2 ^ k + 2 ^ k = 2 ^ (k + 1) by rw [Nat.pow_succ]; omega] at hm
    rw [← hm, ← S.eval_lift (d + 1) (squared_lt hP hd h2 (k + 1)),
      ← S.eval_lift 1 (mul_lt d d _ _ hk), squared]
    rw [show d + (d + 1) = d + 1 + d + 0 by omega, show d + d + 1 = d + 1 + d + 0 by omega]
    exact hr

/-- `f` of a number, the number evaluated first. -/
def force {β : Type} (f : Nat → β) : Nat → β
  | 0 => f 0
  | n + 1 => f (n + 1)

theorem force_eq {β : Type} (f : Nat → β) (n : Nat) : force f n = f n := by cases n <;> rfl

/-- `mul` in the operations the kernel evaluates at once. -/
def mulFast : (n p q : Nat) → Nat
  | 0, _, _ => 0
  | n + 1, p, q => Nat.xor (Nat.mul (Nat.land 1 p) q) (mulFast n (Nat.div p 2) (Nat.mul 2 q))

/-- `reduce` in the operations the kernel evaluates at once. -/
def reduceFast (P d : Nat) : (k a : Nat) → Nat
  | 0, a => a
  | k + 1, a =>
    reduceFast P d k
      (Nat.xor a (Nat.mul (Nat.land 1 (Nat.shiftRight a (Nat.add d k))) (Nat.shiftLeft P k)))

theorem land_one_mul (p i q : Nat) : (1 &&& p >>> i) * q = if p.testBit i then q else 0 := by
  rw [Nat.testBit, Nat.and_comm, Nat.and_one_is_mod]
  rcases Nat.mod_two_eq_zero_or_one (p >>> i) with h | h <;> simp [h]

theorem mulFast_eq (n p q : Nat) : mulFast n p q = mul n p q := by
  induction n generalizing p q with
  | zero => rfl
  | succ n ih =>
    rw [mul, ← land_one_mul, ← ih]
    rfl

theorem reduceFast_eq (P d k a : Nat) : reduceFast P d k a = reduce P d k a := by
  induction k generalizing a with
  | zero => rfl
  | succ k ih =>
    have e : (if a.testBit (d + k) then a ^^^ (P <<< k) else a)
        = a ^^^ (1 &&& a >>> (d + k)) * (P <<< k) := by
      rw [land_one_mul]
      split <;> simp
    rw [reduce, e, ← ih]
    rfl

/-- `a` squared `k` times modulo `P`, each square evaluated before the next: what the kernel can run. -/
def squareTimes (P d : Nat) : (k a : Nat) → Nat
  | 0, a => a
  | k + 1, a => force (fun b => squareTimes P d k b) (reduceFast P d d (mulFast d a a))

theorem squareTimes_eq (P d k : Nat) : squareTimes P d k 2 = squared P d k := by
  have h : ∀ k m, squareTimes P d k (squared P d m) = squared P d (m + k) := by
    intro k
    induction k with
    | zero => intro m; rfl
    | succ k ih =>
      intro m
      rw [squareTimes, force_eq, mulFast_eq, reduceFast_eq, ← squared, ih, show m + 1 + k = m + (k + 1) by omega]
  simpa [squared] using h k 0

/-! ### From single bits to every number -/

/-- Whatever is closed under exclusive-or and holds of 0 and of every power of two below `2^n` holds of every number below
`2^n`. -/
theorem closed_of_powers {U : Nat → Prop} (hx : ∀ a b, U a → U b → U (a ^^^ b)) (h0 : U 0) (n : Nat)
    (hp : ∀ i, i < n → U (2 ^ i)) : ∀ a, a < 2 ^ n → U a := by
  induction n with
  | zero =>
    intro a ha
    have : a = 0 := by omega
    exact this ▸ h0
  | succ n ih =>
    intro a ha
    have hlow := ih (fun i hi => hp i (by omega)) (a % 2 ^ n) (Nat.mod_lt _ (Nat.two_pow_pos n))
    rcases Nat.lt_or_ge a (2 ^ n) with h | h
    · exact ih (fun i hi => hp i (by omega)) a h
    · have e : a = a % 2 ^ n ^^^ 2 ^ n := by
        apply Nat.eq_of_testBit_eq
        intro i
        rw [Nat.testBit_xor, Nat.testBit_mod_two_pow, Nat.testBit_two_pow]
        rcases Nat.lt_trichotomy i n with hi | rfl | hi
        · simp [hi, Nat.ne_of_gt hi]
        · have hdiv : a / 2 ^ i = 1 := by
            rw [Nat.pow_succ] at ha
            exact Nat.div_eq_of_lt_le (by omega) (by omega)
          simp [Nat.testBit_eq_decide_div_mod_eq, hdiv]
        · have hb : a.testBit i = false :=
            Nat.testBit_lt_two_pow (Nat.lt_of_lt_of_le ha (Nat.pow_le_pow_right (by decide) hi))
          simp [hb, Nat.not_lt_of_gt hi, Nat.ne_of_lt hi]
      rw [e]
      exact hx _ _ hlow (hp n (by omega))

/-! ### Many words side by side in one number, 64 bits each -/

/-- Word `j` of the words side by side in `w`. -/
def lane (j w : Nat) : Word := BitVec.ofNat 64 (w >>> (64 * j))

/-- The lowest `k` bits of each of `n` words. -/
def laneMask (k : Nat) : Nat → Nat
  | 0 => 0
  | n + 1 => laneMask k n ||| (2 ^ k - 1) <<< (64 * n)

/-- Each of `n` words shifted left by `k`. -/
def laneShl (n k w : Nat) : Nat := (w &&& laneMask (64 - k) n) <<< k

/-- Each of `n` words rotated left by `k`. -/
def laneRotl (n k w : Nat) : Nat := laneShl n k w ||| (w >>> (64 - k) &&& laneMask k n)

theorem lane_getLsbD (j w i : Nat) (hi : i < 64) : (lane j w).getLsbD i = w.testBit (64 * j + i) := by
  rw [lane, BitVec.getLsbD_ofNat, Nat.testBit_shiftRight]
  simp [hi]

theorem lane_xor (j a b : Nat) : lane j (a ^^^ b) = lane j a ^^^ lane j b := by
  apply BitVec.eq_of_getLsbD_eq
  intro i hi
  rw [BitVec.getLsbD_xor, lane_getLsbD _ _ _ hi, lane_getLsbD _ _ _ hi, lane_getLsbD _ _ _ hi, Nat.testBit_xor]

theorem laneMask_testBit {k n j i : Nat} (hk : k ≤ 64) (hj : j < n) (hi : i < 64) :
    (laneMask k n).testBit (64 * j + i) = decide (i < k) := by
  have above : ∀ n j, n ≤ j → (laneMask k n).testBit (64 * j + i) = false := by
    intro n
    induction n with
    | zero => intro j _; simp [laneMask]
    | succ n ih =>
      intro j h
      have h2 : ¬(64 * j + i - 64 * n < k) := by omega
      simp [laneMask, ih j (by omega), h2, Nat.testBit_two_pow_sub_one, Nat.testBit_shiftLeft]
  induction n with
  | zero => omega
  | succ n ih =>
    rw [laneMask, Nat.testBit_or, Nat.testBit_shiftLeft, Nat.testBit_two_pow_sub_one]
    rcases Nat.lt_or_ge j n with h | h
    · have h2 : ¬(64 * n ≤ 64 * j + i) := by omega
      simp [ih h, h2]
    · have e : j = n := by omega
      subst e
      simp [above j j (Nat.le_refl j)]

theorem lane_laneShl {n j k : Nat} (w : Nat) (hj : j < n) (hk : k ≤ 64) :
    lane j (laneShl n k w) = lane j w <<< k := by
  apply BitVec.eq_of_getLsbD_eq
  intro i hi
  rw [lane_getLsbD _ _ _ hi, BitVec.getLsbD_shiftLeft, laneShl, Nat.testBit_shiftLeft, Nat.testBit_and]
  rcases Nat.lt_or_ge i k with h | h
  · rcases Nat.eq_zero_or_pos j with rfl | h0
    · simp [h]
    · have e : 64 * j + i - k = 64 * (j - 1) + (64 + i - k) := by omega
      rw [e, laneMask_testBit (by omega) (by omega) (by omega)]
      have : ¬(64 + i - k < 64 - k) := by omega
      simp [h, this]
  · have e : 64 * j + i - k = 64 * j + (i - k) := by omega
    have h1 : k ≤ 64 * j + i := by omega
    have h2 : i - k < 64 - k := by omega
    rw [e, laneMask_testBit (by omega) hj (by omega), lane_getLsbD _ _ _ (by omega)]
    simp [h1, h2, Nat.not_lt_of_ge h, hi]

theorem lane_laneRotl {n j k : Nat} (w : Nat) (hj : j < n) (hk : k ≤ 64) :
    lane j (laneRotl n k w) = Machine.rotl (lane j w) k := by
  apply BitVec.eq_of_getLsbD_eq
  intro i hi
  have hs := congrArg (fun x => x.getLsbD i) (lane_laneShl w hj hk)
  simp only [lane_getLsbD _ _ _ hi] at hs
  rw [lane_getLsbD _ _ _ hi, laneRotl, Nat.testBit_or, hs, Machine.rotl, BitVec.getLsbD_or, Nat.testBit_and,
    Nat.testBit_shiftRight, laneMask_testBit hk hj hi, BitVec.getLsbD_ushiftRight]
  congr 1
  rcases Nat.lt_or_ge i k with h | h
  · rw [lane_getLsbD _ _ _ (by omega)]
    simp [h, show 64 - k + (64 * j + i) = 64 * j + (64 - k + i) by omega]
  · rw [BitVec.getLsbD_of_ge _ _ (by omega)]
    simp [Nat.not_lt_of_ge h]

end Sys2Proof.Gf2
end

