-- ==== Sys2Proof/Laws/Annihilator.lean ====
section
/-! SUPPORT. The two steps of CORE as linear steps (R54, R64), the polynomial of degree 128 or 256 each satisfies, and the
jumps as evaluations of their polynomials (R55, R65). That a polynomial is satisfied everywhere is evaluated once on all
single-bit states side by side, and carried from those to all states by linearity. -/

namespace Sys2Proof.Machine

open Sys2Proof.Gf2

theorem xor_left (a b c : Word) : a ^^^ (b ^^^ c) = b ^^^ (a ^^^ c) := by
  rw [← BitVec.xor_assoc, BitVec.xor_comm a b, BitVec.xor_assoc]

theorem step128_xor (p q : Words2) : step128 (xor128 p q) = xor128 (step128 p) (step128 q) := by
  simp only [step128, xor128, rotl_xor, shiftLeft_xor, BitVec.xor_assoc, BitVec.xor_comm, xor_left]

theorem step256_xor (p q : Words4) : step256 (xor256 p q) = xor256 (step256 p) (step256 q) := by
  simp only [step256_eq, xor256, rotl_xor, shiftLeft_xor, BitVec.xor_assoc, BitVec.xor_comm, xor_left]

/-- The step of G128 as a linear step. -/
def linear128 : LinearStep Words2 :=
  { zero := zero128, add := xor128, step := step128, add_zero := xor128_zero, add_comm := xor128_comm
    add_assoc := xor128_assoc, add_self := xor128_self, step_add := step128_xor }

/-- The step of G256 as a linear step. -/
def linear256 : LinearStep Words4 :=
  { zero := zero256, add := xor256, step := step256, add_zero := xor256_zero, add_comm := xor256_comm
    add_assoc := xor256_assoc, add_self := xor256_self, step_add := step256_xor }

/-- Many G128 states side by side: word 0 of each, and word 1 of each. -/
def lanes128 (j : Nat) (w : Nat × Nat) : Words2 := { w0 := lane j w.1, w1 := lane j w.2 }

/-- Many G256 states side by side. -/
def lanes256 (j : Nat) (w : Nat × Nat × Nat × Nat) : Words4 :=
  { w0 := lane j w.1, w1 := lane j w.2.1, w2 := lane j w.2.2.1, w3 := lane j w.2.2.2 }

/-- `STEP128` on `n` states side by side. -/
def wideStep128 (n : Nat) (w : Nat × Nat) : Nat × Nat :=
  (laneRotl n 24 w.1 ^^^ (w.1 ^^^ w.2) ^^^ laneShl n 16 (w.1 ^^^ w.2), laneRotl n 37 (w.1 ^^^ w.2))

/-- `STEP256` on `n` states side by side. -/
def wideStep256 (n : Nat) (w : Nat × Nat × Nat × Nat) : Nat × Nat × Nat × Nat :=
  (w.1 ^^^ (w.2.2.2 ^^^ w.2.1), w.2.1 ^^^ (w.2.2.1 ^^^ w.1), w.2.2.1 ^^^ w.1 ^^^ laneShl n 17 w.2.1,
    laneRotl n 45 (w.2.2.2 ^^^ w.2.1))

theorem lanes128_wideStep (n j : Nat) (hj : j < n) (w : Nat × Nat) :
    lanes128 j (wideStep128 n w) = step128 (lanes128 j w) := by
  simp only [lanes128, wideStep128, step128, lane_xor, lane_laneRotl _ hj (show 24 ≤ 64 by decide),
    lane_laneRotl _ hj (show 37 ≤ 64 by decide), lane_laneShl _ hj (show 16 ≤ 64 by decide)]

theorem lanes256_wideStep (n j : Nat) (hj : j < n) (w : Nat × Nat × Nat × Nat) :
    lanes256 j (wideStep256 n w) = step256 (lanes256 j w) := by
  simp only [lanes256, wideStep256, step256_eq, lane_xor, lane_laneRotl _ hj (show 45 ≤ 64 by decide),
    lane_laneShl _ hj (show 17 ≤ 64 by decide)]

/-- The evaluation of `p` on `n` states side by side; `a` is what is accumulated so far. -/
def wideEval128 (n : Nat) : (k p : Nat) → (a w : Nat × Nat) → Nat × Nat
  | 0, _, a, _ => a
  | k + 1, p, a, w =>
    wideEval128 n k (p / 2) (if p.testBit 0 then (a.1 ^^^ w.1, a.2 ^^^ w.2) else a) (wideStep128 n w)

/-- The same for G256. -/
def wideEval256 (n : Nat) : (k p : Nat) → (a w : Nat × Nat × Nat × Nat) → Nat × Nat × Nat × Nat
  | 0, _, a, _ => a
  | k + 1, p, a, w =>
    wideEval256 n k (p / 2)
      (if p.testBit 0 then (a.1 ^^^ w.1, a.2.1 ^^^ w.2.1, a.2.2.1 ^^^ w.2.2.1, a.2.2.2 ^^^ w.2.2.2) else a)
      (wideStep256 n w)

theorem lanes128_wideEval (n j : Nat) (hj : j < n) (k p : Nat) (a w : Nat × Nat) :
    lanes128 j (wideEval128 n k p a w) = xor128 (lanes128 j a) (linear128.eval k p (lanes128 j w)) := by
  induction k generalizing p a w with
  | zero => exact (xor128_zero _).symm
  | succ k ih =>
    rw [wideEval128, ih, lanes128_wideStep n j hj, LinearStep.eval]
    cases p.testBit 0
    · exact congrArg _ (zero_xor128 _).symm
    · simp only [if_true, LinearStep.pick, ← xor128_assoc, linear128]
      congr 1
      simp only [lanes128, xor128, lane_xor]

theorem lanes256_wideEval (n j : Nat) (hj : j < n) (k p : Nat) (a w : Nat × Nat × Nat × Nat) :
    lanes256 j (wideEval256 n k p a w) = xor256 (lanes256 j a) (linear256.eval k p (lanes256 j w)) := by
  induction k generalizing p a w with
  | zero => exact (xor256_zero _).symm
  | succ k ih =>
    rw [wideEval256, ih, lanes256_wideStep n j hj, LinearStep.eval]
    cases p.testBit 0
    · exact congrArg _ (zero_xor256 _).symm
    · simp only [if_true, LinearStep.pick, ← xor256_assoc, linear256]
      congr 1
      simp only [lanes256, xor256, lane_xor]

/-! ### The two polynomials that evaluate to zero everywhere -/

/-- The `n` lowest single-bit words side by side: word `j` is `2^j`. -/
def unitLanes : Nat → Nat
  | 0 => 0
  | n + 1 => unitLanes n ||| 1 <<< (65 * n)

theorem lane_unitLanes (j : Nat) (hj : j < 64) : lane j (unitLanes 64) = BitVec.ofNat 64 (2 ^ j) :=
  (by decide +kernel : ∀ j, j < 64 → lane j (unitLanes 64) = BitVec.ofNat 64 (2 ^ j)) j hj

theorem lane_zero (j : Nat) : lane j 0 = 0#64 := by simp [lane]

/-- What is closed under exclusive-or and holds of the 64 single-bit words holds of every word. -/
theorem word_closed {U : Word → Prop} (hx : ∀ a b, U a → U b → U (a ^^^ b)) (h0 : U 0#64)
    (hp : ∀ j, j < 64 → U (BitVec.ofNat 64 (2 ^ j))) (v : Word) : U v := by
  have h := closed_of_powers (U := fun n => U (BitVec.ofNat 64 n))
    (fun a b ha hb => by rw [BitVec.ofNat_xor]; exact hx _ _ ha hb) h0 64 hp v.toNat v.isLt
  rwa [BitVec.ofNat_toNat, BitVec.setWidth_eq] at h

/-- The polynomial of degree 128 that `STEP128` satisfies. -/
def stepPoly128 : Nat := 0x10008828e513b43d5095b8f76579aa001

/-- The polynomial of degree 256 that `STEP256` satisfies. -/
def stepPoly256 : Nat := 0x10003c03c3f3ecb1904b4edcf26259f850280002bcefd1a5e9d116f2bb0f0f001

/-- If the evaluation is zero on 64 states side by side, it is zero on each. -/
theorem eval128_of_wide {k p : Nat} {w : Nat × Nat} (h : wideEval128 64 k p (0, 0) w = (0, 0)) (j : Nat)
    (hj : j < 64) : linear128.eval k p (lanes128 j w) = zero128 := by
  have e := lanes128_wideEval 64 j hj k p (0, 0) w
  have z : lanes128 j (0, 0) = zero128 := by simp [lanes128, lane_zero, zero128]
  rw [h, z, zero_xor128] at e
  exact e.symm

theorem eval256_of_wide {k p : Nat} {w : Nat × Nat × Nat × Nat}
    (h : wideEval256 64 k p (0, 0, 0, 0) w = (0, 0, 0, 0)) (j : Nat) (hj : j < 64) :
    linear256.eval k p (lanes256 j w) = zero256 := by
  have e := lanes256_wideEval 64 j hj k p (0, 0, 0, 0) w
  have z : lanes256 j (0, 0, 0, 0) = zero256 := by simp [lanes256, lane_zero, zero256]
  rw [h, z, zero_xor256] at e
  exact e.symm

/-- What is zero on the single-bit words in one place of the state, and additive, is zero on every word there. -/
theorem zero_on_place {α : Type} (S : LinearStep α) (k p : Nat) (place : Word → α)
    (hplace : ∀ a b, place (a ^^^ b) = S.add (place a) (place b)) (h0 : place 0#64 = S.zero)
    (hp : ∀ j, j < 64 → S.eval k p (place (BitVec.ofNat 64 (2 ^ j))) = S.zero) (v : Word) :
    S.eval k p (place v) = S.zero := by
  refine word_closed (U := fun v => S.eval k p (place v) = S.zero) (fun a b ha hb => ?_) ?_ hp v
  · rw [hplace, S.eval_add, ha, hb, S.add_zero]
  · rw [h0, S.eval_of_zero]

/-- `stepPoly128` evaluates to zero on every state. -/
theorem stepPoly128_zero (s : Words2) : linear128.eval 129 stepPoly128 s = linear128.zero := by
  have h0 := zero_on_place linear128 129 stepPoly128 (fun v => { w0 := v, w1 := 0#64 })
    (fun a b => by simp [linear128, xor128]) rfl
    (fun j hj => by
      have h := eval128_of_wide (w := (unitLanes 64, 0))
        (by decide +kernel : wideEval128 64 129 stepPoly128 (0, 0) (unitLanes 64, 0) = (0, 0)) j hj
      rw [lanes128] at h
      simp only [lane_unitLanes j hj, lane_zero] at h
      exact h) s.w0
  have h1 := zero_on_place linear128 129 stepPoly128 (fun v => { w0 := 0#64, w1 := v })
    (fun a b => by simp [linear128, xor128]) rfl
    (fun j hj => by
      have h := eval128_of_wide (w := (0, unitLanes 64))
        (by decide +kernel : wideEval128 64 129 stepPoly128 (0, 0) (0, unitLanes 64) = (0, 0)) j hj
      rw [lanes128] at h
      simp only [lane_unitLanes j hj, lane_zero] at h
      exact h) s.w1
  have e : s = linear128.add { w0 := s.w0, w1 := 0#64 } { w0 := 0#64, w1 := s.w1 } := by
    simp [linear128, xor128]
  rw [e, linear128.eval_add, h0, h1, linear128.add_zero]

/-- `stepPoly256` evaluates to zero on every state. -/
theorem stepPoly256_zero (s : Words4) : linear256.eval 257 stepPoly256 s = linear256.zero := by
  have h0 := zero_on_place linear256 257 stepPoly256 (fun v => { w0 := v, w1 := 0#64, w2 := 0#64, w3 := 0#64 })
    (fun a b => by simp [linear256, xor256]) rfl
    (fun j hj => by
      have h := eval256_of_wide (w := (unitLanes 64, 0, 0, 0))
        (by decide +kernel :
          wideEval256 64 257 stepPoly256 (0, 0, 0, 0) (unitLanes 64, 0, 0, 0) = (0, 0, 0, 0)) j hj
      rw [lanes256] at h
      simp only [lane_unitLanes j hj, lane_zero] at h
      exact h) s.w0
  have h1 := zero_on_place linear256 257 stepPoly256 (fun v => { w0 := 0#64, w1 := v, w2 := 0#64, w3 := 0#64 })
    (fun a b => by simp [linear256, xor256]) rfl
    (fun j hj => by
      have h := eval256_of_wide (w := (0, unitLanes 64, 0, 0))
        (by decide +kernel :
          wideEval256 64 257 stepPoly256 (0, 0, 0, 0) (0, unitLanes 64, 0, 0) = (0, 0, 0, 0)) j hj
      rw [lanes256] at h
      simp only [lane_unitLanes j hj, lane_zero] at h
      exact h) s.w1
  have h2 := zero_on_place linear256 257 stepPoly256 (fun v => { w0 := 0#64, w1 := 0#64, w2 := v, w3 := 0#64 })
    (fun a b => by simp [linear256, xor256]) rfl
    (fun j hj => by
      have h := eval256_of_wide (w := (0, 0, unitLanes 64, 0))
        (by decide +kernel :
          wideEval256 64 257 stepPoly256 (0, 0, 0, 0) (0, 0, unitLanes 64, 0) = (0, 0, 0, 0)) j hj
      rw [lanes256] at h
      simp only [lane_unitLanes j hj, lane_zero] at h
      exact h) s.w2
  have h3 := zero_on_place linear256 257 stepPoly256 (fun v => { w0 := 0#64, w1 := 0#64, w2 := 0#64, w3 := v })
    (fun a b => by simp [linear256, xor256]) rfl
    (fun j hj => by
      have h := eval256_of_wide (w := (0, 0, 0, unitLanes 64))
        (by decide +kernel :
          wideEval256 64 257 stepPoly256 (0, 0, 0, 0) (0, 0, 0, unitLanes 64) = (0, 0, 0, 0)) j hj
      rw [lanes256] at h
      simp only [lane_unitLanes j hj, lane_zero] at h
      exact h) s.w3
  have e : s = linear256.add (linear256.add { w0 := s.w0, w1 := 0#64, w2 := 0#64, w3 := 0#64 }
      { w0 := 0#64, w1 := s.w1, w2 := 0#64, w3 := 0#64 })
      (linear256.add { w0 := 0#64, w1 := 0#64, w2 := s.w2, w3 := 0#64 }
      { w0 := 0#64, w1 := 0#64, w2 := 0#64, w3 := s.w3 }) := by
    simp [linear256, xor256]
  rw [e, linear256.eval_add, linear256.eval_add, linear256.eval_add, h0, h1, h2, h3, linear256.add_zero,
    linear256.add_zero]

/-! ### The jumps as evaluations -/

/-- `JP128` as a number: bit position `b` is bit `b` (D12). -/
def jumpPoly128 : Nat := (Config.jp128.w1 ++ Config.jp128.w0).toNat

/-- `JP256` as a number. -/
def jumpPoly256 : Nat := (Config.jp256.w3 ++ Config.jp256.w2 ++ Config.jp256.w1 ++ Config.jp256.w0).toNat

/-- The loop from position `b` is the accumulator and the evaluation of the number's bits from `b` upward. -/
theorem jumpLoop128_eval (n b : Nat) (h : b + n ≤ 128) (a t : Words2) :
    jumpLoop128 n b a t = xor128 a (linear128.eval n (jumpPoly128 >>> b) t) := by
  induction n generalizing b a t with
  | zero => exact (xor128_zero a).symm
  | succ n ih =>
    have hb : (jumpPoly128 >>> b).testBit 0 = polyBit128 b := by
      have all : ∀ b, b < 128 → (jumpPoly128 >>> b).testBit 0 = polyBit128 b := by decide +kernel
      exact all b (by omega)
    rw [jumpLoop128, ih (b + 1) (by omega), LinearStep.eval, hb, Nat.shiftRight_succ]
    cases h : polyBit128 b <;>
      simp [accumulate128, h, LinearStep.pick, linear128, xor128_assoc, zero_xor128]

theorem jumpLoop256_eval (n b : Nat) (h : b + n ≤ 256) (a t : Words4) :
    jumpLoop256 n b a t = xor256 a (linear256.eval n (jumpPoly256 >>> b) t) := by
  induction n generalizing b a t with
  | zero => exact (xor256_zero a).symm
  | succ n ih =>
    have hb : (jumpPoly256 >>> b).testBit 0 = polyBit256 b := by
      have all : ∀ b, b < 256 → (jumpPoly256 >>> b).testBit 0 = polyBit256 b := by decide +kernel
      exact all b (by omega)
    rw [jumpLoop256, ih (b + 1) (by omega), LinearStep.eval, hb, Nat.shiftRight_succ]
    cases h : polyBit256 b <;>
      simp [accumulate256, h, LinearStep.pick, linear256, xor256_assoc, zero_xor256]

/-- `JUMPFN128` is the evaluation of its polynomial in `STEP128`. -/
theorem jumpFn128_eval (s : Words2) : jumpFn128 s = linear128.eval 128 jumpPoly128 s := by
  rw [jumpFn128, jumpLoop128_eval 128 0 (by decide), zero_xor128, Nat.shiftRight_zero]

theorem jumpFn256_eval (s : Words4) : jumpFn256 s = linear256.eval 256 jumpPoly256 s := by
  rw [jumpFn256, jumpLoop256_eval 256 0 (by decide), zero_xor256, Nat.shiftRight_zero]

/-- The polynomial of the jump of G128 is `x` squared 64 times modulo the polynomial of its step. -/
theorem jumpPoly128_squared : squared stepPoly128 128 64 = jumpPoly128 :=
  (squareTimes_eq stepPoly128 128 64).symm.trans (by decide +kernel)

/-- The polynomial of the jump of G256 is `x` squared 128 times modulo the polynomial of its step. -/
theorem jumpPoly256_squared : squared stepPoly256 256 128 = jumpPoly256 :=
  (squareTimes_eq stepPoly256 256 128).symm.trans (by decide +kernel)

end Sys2Proof.Machine
end

