-- ==== Sys2Proof/Laws/PerInstr.lean ====
section
/-! SUPPORT. Statements for all instructions, made per instruction. Family `EncodesInRow`: the code an instruction is
encoded to fits exactly one row of the opcode table, the row of its mnemonic, whose columns say whether the command takes
`wdata` and delivers `rdata` (R40). -/

namespace Sys2Proof.Laws.EncodesInRow

/-- The rows the encoded code fits are one row, and it is the instruction's. -/
abbrev Statement (i : Instr) : Prop :=
  (opcodeTable.filter fun r => r.fits (encode i).cmd).map
      (fun r => (r.mnemonic, r.takesWdata, r.deliversRdata)) =
    [(i.mnemonic, i.takesWdata, i.deliversRdata)]

theorem next128 : Statement .next128 := by decide
theorem jump128 : Statement .jump128 := by decide

theorem lds128 (i : Fin 2) (v : Word) : Statement (.lds128 i v) := by
  have h : ∀ i : Fin 2, Statement (.lds128 i 0#64) := by decide
  exact h i

theorem rds128 (i : Fin 2) : Statement (.rds128 i) := by
  have h : ∀ i : Fin 2, Statement (.rds128 i) := by decide
  exact h i

theorem next256 : Statement .next256 := by decide
theorem jump256 : Statement .jump256 := by decide

theorem lds256 (i : Fin 4) (v : Word) : Statement (.lds256 i v) := by
  have h : ∀ i : Fin 4, Statement (.lds256 i 0#64) := by decide
  exact h i

theorem rds256 (i : Fin 4) : Statement (.rds256 i) := by
  have h : ∀ i : Fin 4, Statement (.rds256 i) := by decide
  exact h i

theorem toFloat (v : Word) : Statement (.toFloat v) := by
  have h : Statement (.toFloat 0#64) := by decide
  exact h

end Sys2Proof.Laws.EncodesInRow
end

