-- ==== Sys2Proof/Laws/State.lean ====
section
/-! SUPPORT. One lemma per field per update of the state, each true by rfl and tagged for simp, so that no proof unfolds
a record update. -/

namespace Sys2Proof.Machine

@[simp] theorem complete_s128 (r : Option Word) (s : State) : (complete r s).s128 = s.s128 := rfl
@[simp] theorem complete_s256 (r : Option Word) (s : State) : (complete r s).s256 = s.s256 := rfl
@[simp] theorem complete_acc128 (r : Option Word) (s : State) : (complete r s).acc128 = s.acc128 := rfl
@[simp] theorem complete_acc256 (r : Option Word) (s : State) : (complete r s).acc256 = s.acc256 := rfl
@[simp] theorem complete_jc128 (r : Option Word) (s : State) : (complete r s).jc128 = s.jc128 := rfl
@[simp] theorem complete_jc256 (r : Option Word) (s : State) : (complete r s).jc256 = s.jc256 := rfl
@[simp] theorem complete_busy128 (r : Option Word) (s : State) : (complete r s).busy128 = s.busy128 := rfl
@[simp] theorem complete_busy256 (r : Option Word) (s : State) : (complete r s).busy256 = s.busy256 := rfl
@[simp] theorem complete_ci (r : Option Word) (s : State) : (complete r s).ci = s.ci + 1 := rfl
@[simp] theorem complete_port (r : Option Word) (s : State) : (complete r s).port = s.port := rfl
@[simp] theorem complete_responses (r : Option Word) (s : State) : (complete r s).responses = s.responses ++ [r] := rfl
@[simp] theorem complete_resets (r : Option Word) (s : State) : (complete r s).resets = s.resets := rfl

@[simp] theorem writeS128_s128 (s : State) (i : Fin 2) (v : Word) : (writeS128 s i v).s128 = setWord128 s.s128 i v := rfl
@[simp] theorem writeS128_s256 (s : State) (i : Fin 2) (v : Word) : (writeS128 s i v).s256 = s.s256 := rfl
@[simp] theorem writeS128_acc128 (s : State) (i : Fin 2) (v : Word) : (writeS128 s i v).acc128 = s.acc128 := rfl
@[simp] theorem writeS128_acc256 (s : State) (i : Fin 2) (v : Word) : (writeS128 s i v).acc256 = s.acc256 := rfl
@[simp] theorem writeS128_jc128 (s : State) (i : Fin 2) (v : Word) : (writeS128 s i v).jc128 = s.jc128 := rfl
@[simp] theorem writeS128_jc256 (s : State) (i : Fin 2) (v : Word) : (writeS128 s i v).jc256 = s.jc256 := rfl
@[simp] theorem writeS128_busy128 (s : State) (i : Fin 2) (v : Word) : (writeS128 s i v).busy128 = s.busy128 := rfl
@[simp] theorem writeS128_busy256 (s : State) (i : Fin 2) (v : Word) : (writeS128 s i v).busy256 = s.busy256 := rfl
@[simp] theorem writeS128_ci (s : State) (i : Fin 2) (v : Word) : (writeS128 s i v).ci = s.ci := rfl
@[simp] theorem writeS128_port (s : State) (i : Fin 2) (v : Word) : (writeS128 s i v).port = s.port := rfl
@[simp] theorem writeS128_responses (s : State) (i : Fin 2) (v : Word) : (writeS128 s i v).responses = s.responses := rfl
@[simp] theorem writeS128_resets (s : State) (i : Fin 2) (v : Word) : (writeS128 s i v).resets = s.resets := rfl

@[simp] theorem writeS256_s128 (s : State) (i : Fin 4) (v : Word) : (writeS256 s i v).s128 = s.s128 := rfl
@[simp] theorem writeS256_s256 (s : State) (i : Fin 4) (v : Word) : (writeS256 s i v).s256 = setWord256 s.s256 i v := rfl
@[simp] theorem writeS256_acc128 (s : State) (i : Fin 4) (v : Word) : (writeS256 s i v).acc128 = s.acc128 := rfl
@[simp] theorem writeS256_acc256 (s : State) (i : Fin 4) (v : Word) : (writeS256 s i v).acc256 = s.acc256 := rfl
@[simp] theorem writeS256_jc128 (s : State) (i : Fin 4) (v : Word) : (writeS256 s i v).jc128 = s.jc128 := rfl
@[simp] theorem writeS256_jc256 (s : State) (i : Fin 4) (v : Word) : (writeS256 s i v).jc256 = s.jc256 := rfl
@[simp] theorem writeS256_busy128 (s : State) (i : Fin 4) (v : Word) : (writeS256 s i v).busy128 = s.busy128 := rfl
@[simp] theorem writeS256_busy256 (s : State) (i : Fin 4) (v : Word) : (writeS256 s i v).busy256 = s.busy256 := rfl
@[simp] theorem writeS256_ci (s : State) (i : Fin 4) (v : Word) : (writeS256 s i v).ci = s.ci := rfl
@[simp] theorem writeS256_port (s : State) (i : Fin 4) (v : Word) : (writeS256 s i v).port = s.port := rfl
@[simp] theorem writeS256_responses (s : State) (i : Fin 4) (v : Word) : (writeS256 s i v).responses = s.responses := rfl
@[simp] theorem writeS256_resets (s : State) (i : Fin 4) (v : Word) : (writeS256 s i v).resets = s.resets := rfl

@[simp] theorem start128_s128 (s : State) : (start128 s).s128 = s.s128 := rfl
@[simp] theorem start128_s256 (s : State) : (start128 s).s256 = s.s256 := rfl
@[simp] theorem start128_acc128 (s : State) : (start128 s).acc128 = zero128 := rfl
@[simp] theorem start128_acc256 (s : State) : (start128 s).acc256 = s.acc256 := rfl
@[simp] theorem start128_jc128 (s : State) : (start128 s).jc128 = 0#7 := rfl
@[simp] theorem start128_jc256 (s : State) : (start128 s).jc256 = s.jc256 := rfl
@[simp] theorem start128_busy128 (s : State) : (start128 s).busy128 = true := rfl
@[simp] theorem start128_busy256 (s : State) : (start128 s).busy256 = s.busy256 := rfl
@[simp] theorem start128_ci (s : State) : (start128 s).ci = s.ci := rfl
@[simp] theorem start128_port (s : State) : (start128 s).port = s.port := rfl
@[simp] theorem start128_responses (s : State) : (start128 s).responses = s.responses := rfl
@[simp] theorem start128_resets (s : State) : (start128 s).resets = s.resets := rfl

@[simp] theorem start256_s128 (s : State) : (start256 s).s128 = s.s128 := rfl
@[simp] theorem start256_s256 (s : State) : (start256 s).s256 = s.s256 := rfl
@[simp] theorem start256_acc128 (s : State) : (start256 s).acc128 = s.acc128 := rfl
@[simp] theorem start256_acc256 (s : State) : (start256 s).acc256 = zero256 := rfl
@[simp] theorem start256_jc128 (s : State) : (start256 s).jc128 = s.jc128 := rfl
@[simp] theorem start256_jc256 (s : State) : (start256 s).jc256 = 0#8 := rfl
@[simp] theorem start256_busy128 (s : State) : (start256 s).busy128 = s.busy128 := rfl
@[simp] theorem start256_busy256 (s : State) : (start256 s).busy256 = true := rfl
@[simp] theorem start256_ci (s : State) : (start256 s).ci = s.ci := rfl
@[simp] theorem start256_port (s : State) : (start256 s).port = s.port := rfl
@[simp] theorem start256_responses (s : State) : (start256 s).responses = s.responses := rfl
@[simp] theorem start256_resets (s : State) : (start256 s).resets = s.resets := rfl

@[simp] theorem present_s128 (s : State) (x : Input) : (present s x).s128 = s.s128 := rfl
@[simp] theorem present_s256 (s : State) (x : Input) : (present s x).s256 = s.s256 := rfl
@[simp] theorem present_acc128 (s : State) (x : Input) : (present s x).acc128 = s.acc128 := rfl
@[simp] theorem present_acc256 (s : State) (x : Input) : (present s x).acc256 = s.acc256 := rfl
@[simp] theorem present_jc128 (s : State) (x : Input) : (present s x).jc128 = s.jc128 := rfl
@[simp] theorem present_jc256 (s : State) (x : Input) : (present s x).jc256 = s.jc256 := rfl
@[simp] theorem present_busy128 (s : State) (x : Input) : (present s x).busy128 = s.busy128 := rfl
@[simp] theorem present_busy256 (s : State) (x : Input) : (present s x).busy256 = s.busy256 := rfl
@[simp] theorem present_ci (s : State) (x : Input) : (present s x).ci = s.ci := rfl
@[simp] theorem present_port (s : State) (x : Input) : (present s x).port = s.port ++ [x] := rfl
@[simp] theorem present_responses (s : State) (x : Input) : (present s x).responses = s.responses := rfl
@[simp] theorem present_resets (s : State) (x : Input) : (present s x).resets = s.resets := rfl

@[simp] theorem withCommand_s128 (s : State) (c : Command) : (withCommand s c).s128 = s.s128 := rfl
@[simp] theorem withCommand_s256 (s : State) (c : Command) : (withCommand s c).s256 = s.s256 := rfl
@[simp] theorem withCommand_acc128 (s : State) (c : Command) : (withCommand s c).acc128 = s.acc128 := rfl
@[simp] theorem withCommand_acc256 (s : State) (c : Command) : (withCommand s c).acc256 = s.acc256 := rfl
@[simp] theorem withCommand_jc128 (s : State) (c : Command) : (withCommand s c).jc128 = s.jc128 := rfl
@[simp] theorem withCommand_jc256 (s : State) (c : Command) : (withCommand s c).jc256 = s.jc256 := rfl
@[simp] theorem withCommand_busy128 (s : State) (c : Command) : (withCommand s c).busy128 = false := rfl
@[simp] theorem withCommand_busy256 (s : State) (c : Command) : (withCommand s c).busy256 = false := rfl
@[simp] theorem withCommand_ci (s : State) (c : Command) : (withCommand s c).ci = s.ci := rfl
@[simp] theorem withCommand_port (s : State) (c : Command) : (withCommand s c).port = .command c :: s.port := rfl
@[simp] theorem withCommand_responses (s : State) (c : Command) : (withCommand s c).responses = s.responses := rfl
@[simp] theorem withCommand_resets (s : State) (c : Command) : (withCommand s c).resets = s.resets := rfl

@[simp] theorem resetEvent_busy128 (s : State) : (resetEvent s).busy128 = false := rfl
@[simp] theorem resetEvent_busy256 (s : State) : (resetEvent s).busy256 = false := rfl
@[simp] theorem resetEvent_ci (s : State) : (resetEvent s).ci = 0 := rfl
@[simp] theorem resetEvent_port (s : State) : (resetEvent s).port = s.port := rfl
@[simp] theorem resetEvent_responses (s : State) : (resetEvent s).responses = [] := rfl
@[simp] theorem resetEvent_resets (s : State) : (resetEvent s).resets = s.resets + 1 := rfl
@[simp] theorem reset_busy128 : State.reset.busy128 = false := rfl
@[simp] theorem reset_busy256 : State.reset.busy256 = false := rfl
@[simp] theorem reset_ci : State.reset.ci = 0 := rfl
@[simp] theorem reset_port : State.reset.port = [] := rfl
@[simp] theorem reset_responses : State.reset.responses = [] := rfl
@[simp] theorem reset_resets : State.reset.resets = 0 := rfl

end Sys2Proof.Machine
end

