-- ==== Sys2Proof/Laws/Step.lean ====
section
/-! SUPPORT. What a step can do, said once: the meanings, the idle tick, the port, and one inversion lemma. -/

namespace Sys2Proof.Machine

/-- Everything the nine meanings have in common: each answers a next state in which one response entry is added, `CI` has
grown by one, and the port and the reset count are as before. -/
theorem exec_answers (c : Instr) (s : State) :
    ∃ t r, exec c s = .next t ∧ t.responses = s.responses ++ [r] ∧ t.ci = s.ci + 1 ∧
      t.port = s.port ∧ t.resets = s.resets := by
  cases c <;>
    exact ⟨complete _ _, _, rfl, complete_responses _ _, complete_ci _ _, complete_port _ _, complete_resets _ _⟩

/-- No meaning sets a busy flag. -/
theorem exec_keeps_idle {c : Instr} {s t : State} (h : exec c s = .next t) (hs : Safety.Idle s) : Safety.Idle t := by
  cases c <;> simp only [exec, execNext128, execJump128, execLds128, execRds128, execNext256, execJump256, execLds256,
    execRds256, execToFloat, Host.Outcome.next.injEq] at h <;> subst h <;>
    exact ⟨by simp [hs.1], by simp [hs.2]⟩

/-- The same for the machine of micro-steps, whose JUMPs only start an engine. -/
theorem launch_answers (c : Instr) (s : State) : ∃ t, launch c s = .next t ∧ t.port = s.port ∧ t.resets = s.resets := by
  cases c <;> first
    | exact ⟨complete _ _, rfl, complete_port _ _, complete_resets _ _⟩
    | exact ⟨start128 s, rfl, start128_port s, start128_resets s⟩
    | exact ⟨start256 s, rfl, start256_port s, start256_resets s⟩

/-- An idle instance does nothing by itself. -/
theorem tick_of_idle {s : State} (h : Safety.Idle s) : tick s = s := by
  simp [tick, h.1, h.2]

/-- A tick never touches the port or the reset count. -/
theorem tick_port (s : State) : (tick s).port = s.port ∧ (tick s).resets = s.resets := by
  simp only [tick, micro128, micro256]
  split_ifs <;> simp

/-- Everything a step at the port can do, guards included. -/
theorem portStep_cases (run : Instr → State → Host.Outcome State Fault Refusal) (s : State) :
    (s.port = [] ∧ portStep run s = .next (tick s)) ∨
    (∃ rest, s.port = .reset :: rest ∧ portStep run s = .next (resetEvent { s with port := rest })) ∨
    (∃ rest, s.port = .idle :: rest ∧ portStep run s = .next (tick { s with port := rest })) ∨
    (∃ c rest, s.port = .command c :: rest ∧ busy s = true ∧ portStep run s = .next (tick s)) ∨
    (∃ c rest i, s.port = .command c :: rest ∧ busy s = false ∧ decode c = .ok i ∧
      portStep run s = run i { s with port := rest }) ∨
    (∃ c rest why, s.port = .command c :: rest ∧ busy s = false ∧ decode c = .error why ∧
      portStep run s = .refused (.reservedCode why c.cmd)) := by
  unfold portStep
  match hp : s.port with
  | [] => exact .inl ⟨rfl, rfl⟩
  | .reset :: rest => exact .inr (.inl ⟨rest, rfl, rfl⟩)
  | .idle :: rest => exact .inr (.inr (.inl ⟨rest, rfl, rfl⟩))
  | .command c :: rest =>
    cases hb : busy s with
    | true => exact .inr (.inr (.inr (.inl ⟨c, rest, rfl, rfl, by simp⟩)))
    | false =>
      cases hd : decode c with
      | ok i => exact .inr (.inr (.inr (.inr (.inl ⟨c, rest, i, rfl, rfl, hd, by simp [accept, hd]⟩))))
      | error why => exact .inr (.inr (.inr (.inr (.inr ⟨c, rest, why, rfl, rfl, hd, by simp [accept, hd]⟩))))

/-- A command that decodes, presented to an idle instance, is what the step runs. -/
theorem portStep_of_command {run : Instr → State → Host.Outcome State Fault Refusal} {s : State} {c : Command}
    {rest : List Input} {i : Instr} (hs : Safety.Idle s) (hp : s.port = .command c :: rest) (hd : decode c = .ok i) :
    portStep run s = run i { s with port := rest } := by
  simp [portStep, hp, busy, hs.1, hs.2, accept, hd]

/-- The host's runner of the machine is the one of this package. -/
theorem run_core (n : Nat) (s : State) : Host.Core.run Sys2Proof.core n s = runWith step n s := by
  induction n generalizing s with
  | zero => rfl
  | succ n ih =>
    have e := Host.Core.run.eq_def Sys2Proof.core (n + 1) s
    dsimp only at e
    rw [e, runWith]
    cases h : step s with
    | next t => rw [show Sys2Proof.core.step s = .next t from h]; exact ih t
    | fault f => rw [show Sys2Proof.core.step s = .fault f from h]; rfl
    | refused r => rw [show Sys2Proof.core.step s = .refused r from h]; rfl

/-- A run of `m + n` steps is a run of `m` and then one of `n`. -/
theorem runWith_add {one : State → Host.Outcome State Fault Refusal} {m n : Nat} {s t : State}
    (h : runWith one m s = .next t) : runWith one (m + n) s = runWith one n t := by
  induction m generalizing s with
  | zero => cases h; simp
  | succ m ih =>
    rw [Nat.add_right_comm, runWith]
    rw [runWith] at h
    cases hs : one s with
    | next u => rw [hs] at h; exact ih h
    | fault f => rw [hs] at h; cases h
    | refused r => rw [hs] at h; cases h

end Sys2Proof.Machine
end

