-- ==== Sys2Proof/Laws/System.lean ====
section
/-! SUPPORT. What an event at one instance of a system does to that instance and to the others, and which of an
interleaving's events are an instance's own (R36). -/

namespace Sys2Proof.Machine

theorem systemEvent_same {n : Nat} (k : Fin n) (e : CoreEvent) (y : System n) :
    (systemEvent k e y).cores[k] = coreEvent e y.cores[k] := by
  simp [systemEvent]

theorem systemEvent_other {n : Nat} {k j : Fin n} (h : j ≠ k) (e : CoreEvent) (y : System n) :
    (systemEvent k e y).cores[j] = y.cores[j] := by
  have h' : (k : Nat) ≠ j := fun q => h (Fin.ext q.symm)
  simp [systemEvent, h']

theorem eventsOf_same {n : Nat} (k : Fin n) (e : CoreEvent) (es : List (Fin n × CoreEvent)) :
    eventsOf k ((k, e) :: es) = e :: eventsOf k es := by
  simp [eventsOf]

theorem eventsOf_other {n : Nat} {k j : Fin n} (h : j ≠ k) (e : CoreEvent) (es : List (Fin n × CoreEvent)) :
    eventsOf j ((k, e) :: es) = eventsOf j es := by
  simp [eventsOf, h.symm]

/-- Everything an event can do to a running instance. -/
theorem coreEvent_running (e : CoreEvent) (s : State) :
    (∃ x, e = .present x ∧ coreEvent e (.running s) = .running (present s x)) ∨
    (∃ t, e = .advance ∧ step s = .next t ∧ coreEvent e (.running s) = .running t) ∨
    (∃ why, e = .advance ∧ step s = .refused why ∧ coreEvent e (.running s) = .stopped s why) := by
  cases e with
  | present x => exact .inl ⟨x, rfl, rfl⟩
  | advance =>
    cases h : step s with
    | next t => exact .inr (.inl ⟨t, rfl, rfl, by simp [coreEvent, h]⟩)
    | refused why => exact .inr (.inr ⟨why, rfl, rfl, by simp [coreEvent, h]⟩)
    | fault f => exact nomatch f

end Sys2Proof.Machine
end

