-- ==== Sys2Proof/Machine/Assembler.lean ====
section
/-! DEFINITION. The textual form of commands and pseudo-instructions (R44, R45), read from characters: one line at a
time, `;` starts a comment. The spec gives the forms and not the spacing: blanks separate, an operand list is separated by
commas, a blank line is no command, hexadecimal digits are of either case. DESIGN CHOICE (log 14). -/

namespace Sys2Proof.Machine

/-- What a line is cut into. -/
inductive Token where
  | word (cs : List Char)
  | comma
deriving DecidableEq, Repr

/-- A finished word, if any, before the tokens after it; `acc` holds its characters, last first. -/
def flushWord (acc : List Char) (ts : List Token) : List Token :=
  match acc with
  | [] => ts
  | c :: cs => .word (c :: cs).reverse :: ts

/-- Cut a line without its comment into words and commas. -/
def tokens : (acc : List Char) → List Char → List Token
  | acc, [] => flushWord acc []
  | acc, c :: rest =>
    if c = ' ' ∨ c = '\t' then flushWord acc (tokens [] rest)
    else if c = ',' then flushWord acc (.comma :: tokens [] rest)
    else tokens (c :: acc) rest

/-- The value of a decimal digit. -/
def decDigit (c : Char) : Option Nat :=
  if '0'.toNat ≤ c.toNat ∧ c.toNat ≤ '9'.toNat then some (c.toNat - '0'.toNat) else none

/-- The value of a hexadecimal digit. -/
def hexDigit (c : Char) : Option Nat :=
  if 'a'.toNat ≤ c.toNat ∧ c.toNat ≤ 'f'.toNat then some (c.toNat - 'a'.toNat + 10)
  else if 'A'.toNat ≤ c.toNat ∧ c.toNat ≤ 'F'.toNat then some (c.toNat - 'A'.toNat + 10)
  else decDigit c

/-- The digits of a number in a base, most significant first. -/
def digitsValue (digit : Char → Option Nat) (base : Nat) : (acc : Nat) → List Char → Option Nat
  | acc, [] => some acc
  | acc, c :: rest => (digit c).bind fun d => digitsValue digit base (acc * base + d) rest

/-- `i`, one decimal digit (R44). -/
def readIndex : List Char → Option Nat
  | [c] => decDigit c
  | _ => none

/-- `k`, a decimal number (R45). -/
def readCount : List Char → Option Nat
  | [] => none
  | c :: cs => digitsValue decDigit 10 0 (c :: cs)

/-- `value`: `%last`, or `0x` followed by 1 to 16 hexadecimal digits (R44). -/
def readOperand (w : List Char) : Option Operand :=
  if w = "%last".toList then some .last
  else match w with
    | '0' :: 'x' :: ds =>
      if 1 ≤ ds.length ∧ ds.length ≤ 16 then (digitsValue hexDigit 16 0 ds).map .lit else none
    | _ => none

/-- The forms with no operand. -/
def readForm0 (m : List Char) : Option SourceLine :=
  if m = "NEXT128".toList then some (.line .next128)
  else if m = "JUMP128".toList then some (.line .jump128)
  else if m = "NEXT256".toList then some (.line .next256)
  else if m = "JUMP256".toList then some (.line .jump256)
  else if m = "NEXTF128".toList then some (.pseudo .nextF128)
  else if m = "NEXTF256".toList then some (.pseudo .nextF256)
  else none

/-- The forms with one operand. -/
def readForm1 (m a : List Char) : Option SourceLine :=
  if m = "RDS128".toList then (readIndex a).map fun i => .line (.rds128 i)
  else if m = "RDS256".toList then (readIndex a).map fun i => .line (.rds256 i)
  else if m = "TOFLOAT".toList then (readOperand a).map fun v => .line (.toFloat v)
  else if m = "LANE128".toList then (readCount a).map fun k => .pseudo (.lane128 k)
  else if m = "LANE256".toList then (readCount a).map fun k => .pseudo (.lane256 k)
  else none

/-- The forms with two operands. -/
def readForm2 (m a b : List Char) : Option SourceLine :=
  if m = "LDS128".toList then
    (readIndex a).bind fun i => (readOperand b).map fun v => .line (.lds128 i v)
  else if m = "LDS256".toList then
    (readIndex a).bind fun i => (readOperand b).map fun v => .line (.lds256 i v)
  else if m = "SEED128".toList then
    (readOperand a).bind fun v0 => (readOperand b).map fun v1 => .pseudo (.seed128 v0 v1)
  else none

/-- The form with four operands. -/
def readForm4 (m a b c d : List Char) : Option SourceLine :=
  if m = "SEED256".toList then
    (readOperand a).bind fun v0 => (readOperand b).bind fun v1 =>
      (readOperand c).bind fun v2 => (readOperand d).map fun v3 => .pseudo (.seed256 v0 v1 v2 v3)
  else none

/-- A line's tokens read as one of the forms; "The forms are exactly" those of R44 and R45. -/
def readTokens : List Token → Option SourceLine
  | [.word m] => readForm0 m
  | [.word m, .word a] => readForm1 m a
  | [.word m, .word a, .comma, .word b] => readForm2 m a b
  | [.word m, .word a, .comma, .word b, .comma, .word c, .comma, .word d] => readForm4 m a b c d
  | _ => none

/-- Read one line: `some []` for a line with no command on it, `none` for one that is no form. -/
def readLine (cs : List Char) : Option (List SourceLine) :=
  match tokens [] (cs.takeWhile (· ≠ ';')) with
  | [] => some []
  | t :: ts => (readTokens (t :: ts)).map fun l => [l]

/-- Cut a text at its line ends; `acc` holds the line so far, last character first. -/
def textLines : (acc : List Char) → List Char → List (List Char)
  | acc, [] => [acc.reverse]
  | acc, c :: rest => if c = '\n' then acc.reverse :: textLines [] rest else textLines (c :: acc) rest

/-- Read a whole text, one command per line. -/
def readText (cs : List Char) : Option (List SourceLine) :=
  ((textLines [] cs).mapM readLine).map List.flatten

end Sys2Proof.Machine
end

