-- ==== Sys2Proof/Tests/Slice0.lean ====
section
/-! SUPPORT. The model's own tests. Expected values are the spec's worked examples and the vectors of 95_test_vectors.md,
each cited; a witness theorem gives, for a statement with hypotheses, a concrete state and operands that meet them. -/

namespace Sys2Proof.Tests

open Sys2Proof.Machine Sys2Proof.Safety

/-- A small state: everything zero, idle, nothing presented. -/
def blank : State :=
  { s128 := zero128, s256 := zero256, acc128 := zero128, acc256 := zero256, jc128 := 0#7, jc256 := 0#8
    busy128 := false, busy256 := false, ci := 0, port := [], responses := [], resets := 0 }

/-- `blank` with inputs waiting. -/
def withPort (xs : List Input) : State := { blank with port := xs }

/-- `blank` with one command waiting. -/
def withCode (c : Code) : State := withPort [.command { cmd := c, wdata := 0#64 }]

/-- `blank` with the G128 words given. -/
def with128 (a b : Word) : State := { blank with s128 := { w0 := a, w1 := b } }

/-- `blank` with the G256 words given. -/
def with256 (a b c d : Word) : State := { blank with s256 := { w0 := a, w1 := b, w2 := c, w3 := d } }

/-- What is seen of a next state. -/
def seen {α : Type} (f : State → α) : Host.Outcome State Fault Refusal → Option α
  | .next t => some (f t)
  | .fault _ => none
  | .refused _ => none

/-- The refusal of an outcome. -/
def refusal : Host.Outcome State Fault Refusal → Option Refusal
  | .next _ => none
  | .fault _ => none
  | .refused r => some r

/-! ### Decoding: the words of R38 and R40 written out bit by bit (VE-1 to VE-9), and reserved codes (VE-10 to VE-18) -/

theorem test_decode_next128 : decode { cmd := 0b01000000#8, wdata := 5#64 } = .ok .next128 := by decide
theorem test_decode_jump128 : decode { cmd := 0b01010000#8, wdata := 5#64 } = .ok .jump128 := by decide
theorem test_decode_lds128_1 : decode { cmd := 0b01100001#8, wdata := 5#64 } = .ok (.lds128 1 5#64) := by decide
theorem test_decode_rds128_0 : decode { cmd := 0b01110000#8, wdata := 5#64 } = .ok (.rds128 0) := by decide
theorem test_decode_next256 : decode { cmd := 0b10000000#8, wdata := 5#64 } = .ok .next256 := by decide
theorem test_decode_jump256 : decode { cmd := 0b10010000#8, wdata := 5#64 } = .ok .jump256 := by decide
theorem test_decode_lds256_3 : decode { cmd := 0b10100011#8, wdata := 5#64 } = .ok (.lds256 3 5#64) := by decide
theorem test_decode_rds256_2 : decode { cmd := 0b10110010#8, wdata := 5#64 } = .ok (.rds256 2) := by decide
theorem test_decode_toFloat : decode { cmd := 0b11000000#8, wdata := 5#64 } = .ok (.toFloat 5#64) := by decide

theorem test_decode_reserved :
    [0x00#8, 0x41#8, 0x62#8, 0x73#8, 0x44#8, 0xA8#8, 0xC1#8, 0xD0#8, 0xFF#8].map
        (fun c => decode { cmd := c, wdata := 0#64 }) =
      [.error .unitZero, .error .idxNonzero, .error .idx128High, .error .idx128High, .error .zeroField,
        .error .zeroField, .error .idxNonzero, .error .fcFunc, .error .zeroField] := by decide

/-- "A decoder built from `opcode_table.json` accepts exactly 17 of the 256 codes", those of R40. -/
theorem test_decode_seventeen_codes :
    ((List.range 256).map (BitVec.ofNat 8)).filter (fun c => legalCode { cmd := c, wdata := 0#64 }) = commandCodes := by
  decide +kernel

theorem test_decodeTableWord : decodeTableWord 8 0x61 = some (.lds128 1 0#64) := by decide

/-! ### Well-formedness: an ill-formed term for each check -/

theorem test_wf_refuses_lds128_index : AsmLine.wf (.lds128 2 (.lit 0)) = false := by decide
theorem test_wf_refuses_rds128_index : AsmLine.wf (.rds128 2) = false := by decide
theorem test_wf_refuses_lds256_index : AsmLine.wf (.lds256 4 (.lit 0)) = false := by decide
theorem test_wf_refuses_rds256_index : AsmLine.wf (.rds256 4) = false := by decide
theorem test_wf_refuses_wide_literals :
    (AsmLine.wf (.lds128 0 (.lit (2 ^ 64))) || AsmLine.wf (.lds256 0 (.lit (2 ^ 64))) ||
      AsmLine.wf (.toFloat (.lit (2 ^ 64)))) = false := by decide
theorem test_wf_refuses_last_before_response :
    AsmLine.programWf [.jump128, .toFloat .last] = false ∧ AsmLine.programWf [.next128, .toFloat .last] = true := by
  decide
theorem test_source_wf : SourceLine.programWf [.pseudo .nextF128] = true ∧
    SourceLine.programWf [.pseudo (.seed128 .last (.lit 0))] = false := by decide

/-! ### The nine commands, on the vectors of 95_test_vectors.md -/

/-- V128-N8. -/
theorem test_next128_scenario_seed :
    seen (fun t => (t.s128, t.responses, t.ci)) (exec .next128 (with128 0x9E3779B97F4A7C15 0x6C078965D5B2A5D3)) =
      some ({ w0 := 0xBB93105866A0EEBF, w1 := 0x5F1B38DE461E1B95 }, [some 0x0A3F031F54FD21E8], 1) := by decide

/-- V128-N6: the sum is exactly 2^64. -/
theorem test_next128_wraps :
    seen (fun t => (t.s128, t.responses)) (exec .next128 (with128 0xFFFFFFFFFFFFFFFF 1)) =
      some ({ w0 := 0xFFFFFFFFFFFE0001, w1 := 0xFFFFFFDFFFFFFFFF }, [some 0]) := by decide

/-- V128-J5 (scenario S1). -/
theorem test_jump128_scenario_seed :
    seen (fun t => (t.s128, t.responses)) (exec .jump128 (with128 0x9E3779B97F4A7C15 0x6C078965D5B2A5D3)) =
      some ({ w0 := 0x7725D326082D0D8B, w1 := 0x79C2B98F65983834 }, [none]) := by decide +kernel

/-- V128-J4. -/
theorem test_jump128_one_two :
    jumpFn128 { w0 := 1, w1 := 2 } = { w0 := 0x66FBD4BE1DF0A7B5, w1 := 0x830C3DDBB4AA3172 } := by decide +kernel

/-- The engine trace of V128-J4 after b = 2. -/
theorem test_micro128_trace :
    let s := micro128 (micro128 (micro128 (start128 (with128 1 2))))
    (s.acc128, s.s128, s.jc128, s.busy128) =
      ({ w0 := 0x0061026302000002, w1 := 0x2060006000000C02 }, { w0 := 0x410000030D036D01, w1 := 0x4001806400204060 },
        3#7, true) := by decide

/-- V128-L2: loading a word leaves the other. -/
theorem test_lds128_other_word :
    seen (fun t => (t.s128, t.responses)) (exec (.lds128 0 1) (with128 0xAAAAAAAAAAAAAAAA 0x5555555555555555)) =
      some ({ w0 := 1, w1 := 0x5555555555555555 }, [none]) := by decide

theorem test_rds128_word1 :
    seen (fun t => (t.s128, t.responses)) (exec (.rds128 1) (with128 0xAAAAAAAAAAAAAAAA 0x5555555555555555)) =
      some ({ w0 := 0xAAAAAAAAAAAAAAAA, w1 := 0x5555555555555555 }, [some 0x5555555555555555]) := by decide

/-- V256-N9. -/
theorem test_next256_scenario_seed :
    seen (fun t => (t.s256, t.responses))
        (exec .next256 (with256 0x9E3779B97F4A7C15 0x6C078965D5B2A5D3 0xBF58476D1CE4E5B9 0x94D049BB133111EB)) =
      some ({ w0 := 0x66E0B967B9C9C82D, w1 := 0x4D68B7B1B61C3C7F, w2 := 0x33A495B1280899AC, w3 := 0x76871F1AF81BD8D0 },
        [some 0x3307C374927B8E00]) := by decide

/-- V256-N2 and V256-N3 tell the sequential reading from a parallel one. -/
theorem test_next256_sequential :
    (step256 { w0 := 1, w1 := 0, w2 := 0, w3 := 0 }).w1 = 1 ∧ (step256 { w0 := 0, w1 := 1, w2 := 0, w3 := 0 }).w0 = 1 := by
  decide

/-- V256-J4 (scenario S3). -/
theorem test_jump256_scenario_seed :
    seen (fun t => (t.s256, t.responses))
        (exec .jump256 (with256 0x9E3779B97F4A7C15 0x6C078965D5B2A5D3 0xBF58476D1CE4E5B9 0x94D049BB133111EB)) =
      some ({ w0 := 0xB790E4105F314C15, w1 := 0xE32E2CFA4BBD9E2B, w2 := 0x3E4FD2160CCEFA76, w3 := 0x5E3854BF50E43BD2 },
        [none]) := by decide +kernel

/-- The example of R61 after b = 1. -/
theorem test_micro256_trace :
    let s := micro256 (micro256 (start256 (with256 1 2 3 4)))
    (s.acc256, s.s256) =
      ({ w0 := 7, w1 := 0, w2 := 0x40002, w3 := 0x0000C00000000000 },
        { w0 := 0x0000C00000000007, w1 := 0x0000000000040005, w2 := 0x0000000000040005, w3 := 0x0000000018000000 }) := by
  decide

/-- V256-L3. -/
theorem test_lds256_word2 :
    seen (fun t => t.s256) (exec (.lds256 2 0x99) (with256 0x11 0x22 0x33 0x44)) =
      some { w0 := 0x11, w1 := 0x22, w2 := 0x99, w3 := 0x44 } := by decide

/-- V256-L1. -/
theorem test_rds256_words :
    [0, 1, 2, 3].map (fun i => seen (fun t => t.responses) (exec (.rds256 i) (with256 0x11 0x22 0x33 0x44))) =
      [some [some 0x11], some [some 0x22], some [some 0x33], some [some 0x44]] := by decide

/-- VF-14: the worked example of R68 and R69. -/
theorem test_toFloat_example :
    seen (fun t => t.responses) (exec (.toFloat 0x123456789ABCDEF0) blank) = some [some 0x3FB23456789ABCD8] := by decide

/-- VF-1, VF-3, VF-4, VF-7, VF-10, VF-11, VF-12. -/
theorem test_toFloat_corners :
    [0x0#64, 0x7FF#64, 0x800#64, 0x1800#64, 0x8000000000000000#64, 0xFFFFFFFFFFFFFFFF#64, 0xFFFFFFFFFFFFF7FF#64].map
        (fun v => f64Bits (topBits v)) =
      [0x0#64, 0x0#64, 0x3CA0000000000000#64, 0x3CB8000000000000#64, 0x3FE0000000000000#64, 0x3FEFFFFFFFFFFFFF#64,
        0x3FEFFFFFFFFFFFFE#64] := by decide

/-! ### The port, reset, the caller's notation -/

/-- The command right after reset runs, on whatever the free values are. -/
theorem test_first_command_after_reset :
    seen (fun t => (t.responses.length, t.ci, t.port)) (step (State.reset.withFetchWord 8 0x40)) = some (1, 1, []) := by
  decide

/-- P5, CI 3: a reserved code is refused. -/
theorem test_reserved_code_refused :
    refusal (step (withCode 0x41#8)) = some (.reservedCode .idxNonzero 0x41#8) := by decide

/-- A reset lands inside a jump (R87). -/
theorem test_reset_abandons_jump :
    seen (fun t => (t.busy128, t.ci, t.port, t.resets))
        (step { withPort [.reset] with busy128 := true, jc128 := 5#7, ci := 3 }) = some (false, 0, [], 1) := by decide

/-- The forms of R44 and R45, from text. -/
theorem test_read_lds128 :
    readLine "LDS128  1, 0x6C078965D5B2A5D3   ; seed".toList =
      some [.line (.lds128 1 (.lit 0x6C078965D5B2A5D3))] := by decide
theorem test_read_text :
    readText "SEED256 0x1, 0x2, 0x3, 0x4\n; nothing\nLANE128 12\nTOFLOAT %last".toList =
      some [.pseudo (.seed256 (.lit 1) (.lit 2) (.lit 3) (.lit 4)), .pseudo (.lane128 12), .line (.toFloat .last)] := by
  decide
theorem test_read_refuses :
    readLine "LDS128 1 0x2".toList = none ∧ readLine "TOFLOAT 12".toList = none ∧
      readLine "TOFLOAT 0x12345678901234567".toList = none := by decide

/-! ### Witnesses: for each statement with hypotheses, a state and operands that meet them together -/

/-- For every `CodeRuns` of the result statements, and for SeventeenCodesDecode: an idle instance with that code. -/
theorem witness_CodeRuns : ∀ c ∈ commandCodes,
    Idle (withCode c) ∧ (withCode c).port = [.command { cmd := c, wdata := 0#64 }] := by decide

theorem witness_SeventeenCodesDecode_reserved :
    (0x3F#8 : Code) ∉ commandCodes ∧ (0xC1#8 : Code) ∉ commandCodes := by decide

/-- One code for each class of R41, at the edge of its range. -/
theorem witness_ReservedCodesRefused :
    (∀ c : Code, Idle (withCode c) ∧ (withCode c).port = [.command { cmd := c, wdata := 0#64 }]) ∧
    (0x3F#8).extractLsb' 6 2 = 0b00#2 ∧ (0x44#8).extractLsb' 2 2 ≠ 0b00#2 ∧
    ((0x93#8).getLsbD 5 = false ∧ (0x93#8).extractLsb' 0 2 ≠ 0b00#2) ∧
    ((0x62#8).extractLsb' 6 2 = 0b01#2 ∧ (0x62#8).getLsbD 1 = true) ∧
    ((0xD0#8).extractLsb' 6 2 = 0b11#2 ∧ (0xD0#8).extractLsb' 4 2 ≠ 0b00#2) :=
  ⟨fun _ => ⟨⟨rfl, rfl⟩, rfl⟩, by decide⟩

theorem witness_EncodeOfDecode :
    decode { cmd := 0xA3#8, wdata := 7#64 } = .ok (.lds256 3 7#64) ∧ (Instr.lds256 3 7#64).takesWdata = true := by decide

theorem witness_DecoderAgreesWithOpcodeTable :
    decode { cmd := 0x71#8, wdata := 7#64 } = .ok (.rds128 1) ∧
      (opcodeTable.filter fun r => r.fits 0x71#8).length = 1 := by decide

theorem witness_StopsOnlyOnReservedCode :
    refusal (step (withCode 0xFF#8)) = some (.reservedCode .zeroField 0xFF#8) := by decide

theorem witness_StepRunsDecodedCommand :
    Idle (withCode 0x40#8) ∧ (withCode 0x40#8).port = [.command { cmd := 0x40#8, wdata := 0#64 }] ∧
      decode { cmd := 0x40#8, wdata := 0#64 } = .ok .next128 := by decide

theorem witness_FetchWordRunsNext :
    decodeTableWord 8 0xC0 = some (.toFloat 0#64) ∧ decodeTableWord 72 0x3C0 = some (.toFloat 3#64) := by decide

theorem witness_UnusedWdataIgnored :
    Idle (withCode 0xB3#8) ∧ decode { cmd := 0xB3#8, wdata := 0#64 } = .ok (.rds256 3) ∧
      (Instr.rds256 3).takesWdata = false := by decide

theorem witness_IdleInstanceHoldsState :
    Quiet blank ∧ Idle (withPort [.idle, .reset]) ∧ (withPort [.idle, .reset]).port = .idle :: [.reset] := by decide

/-- Both sides of the last bit position, for each generator. -/
theorem witness_BusyInstanceAcceptsNoCommand :
    let s := { withCode 0x40#8 with busy128 := true, jc128 := 126#7 }
    let t := { withCode 0x40#8 with busy128 := true, jc128 := 127#7 }
    let u := { withCode 0x40#8 with busy256 := true, jc256 := 254#8 }
    let v := { withCode 0x40#8 with busy256 := true, jc256 := 255#8 }
    RunInv s ∧ RunInv t ∧ RunInv u ∧ RunInv v ∧ s.busy128 = true ∧ s.jc128 ≠ 127#7 ∧ t.jc128 = 127#7 ∧
      u.busy256 = true ∧ u.jc256 ≠ 255#8 ∧ v.jc256 = 255#8 ∧
      s.port = [.command { cmd := 0x40#8, wdata := 0#64 }] := by decide

/-- For ResetEventAtAnyTime and ResetAbandonsJump: a reset presented during a jump. -/
theorem witness_ResetEventAtAnyTime :
    ({ withPort [.reset, .idle] with busy256 := true }).port = .reset :: [.idle] := by decide

theorem witness_FirstCommandAfterReset : decode { cmd := 0x60#8, wdata := 1#64 } = .ok (.lds128 0 1#64) := by decide

theorem witness_ArithmeticPrimitives :
    bit (rotl 1#64 63) ((0 + 63) % 64) = bit 1#64 0 ∧ bit (rotl 1#64 1) ((63 + 1) % 64) = bit 1#64 63 := by decide

/-- Bit positions 15, 16 and 63 are in the range of the bitwise clause. -/
theorem witness_Step128Bitwise : (15 < 64 ∧ ¬16 ≤ 15) ∧ (16 < 64 ∧ 16 ≤ 16) ∧ 63 < 64 := by decide

theorem witness_ZeroStateKept :
    blank.s128 = zero128 ∧ blank.s256 = zero256 ∧ (∀ k v, Instr.jump128 ≠ .lds128 k v) ∧
      (∀ k v, Instr.jump256 ≠ .lds256 k v) :=
  ⟨by decide, by decide, by simp, by simp⟩

theorem witness_UnitValueOfWord :
    (0x800#64 >>> 11 = 0xFFF#64 >>> 11) ∧ (0x7FF#64).toNat ≤ 0x7FF ∧ 0xFFFFFFFFFFFFF800 ≤ (0xFFFFFFFFFFFFF800#64).toNat := by
  decide

theorem witness_FloatBitsExact :
    (1 < 2 ^ 53 ∧ 2 ^ 0 ≤ 1 ∧ 1 < 2 ^ (0 + 1)) ∧
      (2 ^ 53 - 1 < 2 ^ 53 ∧ 2 ^ 52 ≤ 2 ^ 53 - 1 ∧ 2 ^ 53 - 1 < 2 ^ (52 + 1)) := by decide

theorem witness_FloatConversionFibresAndOrder :
    (0x7FF#64).toNat ≤ (0x800#64).toNat ∧ 2 ^ 53 - 1 < 2 ^ 53 ∧ 2047 < 2048 ∧
      970 ≤ f64Exp (f64Bits (topBits 0x800#64)) := by decide

/-- For both engine statements and MicroStepMachineRefinesAtomic: an idle instance, a JUMP, a command behind it. -/
theorem witness_JumpEngineEqualsCommand :
    let rest : List Input := [.command { cmd := 0x40#8, wdata := 0#64 }]
    let s := withPort (.command { cmd := 0x50#8, wdata := 9#64 } :: rest)
    let t := withPort (.command { cmd := 0x90#8, wdata := 9#64 } :: rest)
    Idle s ∧ Idle t ∧ s.port = .command { cmd := 0x50#8, wdata := 9#64 } :: rest ∧
      t.port = .command { cmd := 0x90#8, wdata := 9#64 } :: rest ∧
      (∀ x ∈ rest, ∃ c, x = .command c) ∧ (∀ x ∈ s.port, ∃ c, x = .command c) := by
  refine ⟨⟨rfl, rfl⟩, ⟨rfl, rfl⟩, rfl, rfl, ?_, ?_⟩ <;> intro x hx <;> simp [withPort] at hx
  · exact ⟨_, hx⟩
  · rcases hx with hx | hx <;> exact ⟨_, hx⟩

theorem witness_StepKeepsRunInvariant :
    RunInv blank ∧ Idle blank ∧ step blank = .next blank ∧
      RunInv { withPort [] with busy128 := true } ∧
      microStep { withPort [] with busy128 := true } = .next (micro128 { withPort [] with busy128 := true }) :=
  ⟨by decide, by decide, rfl, by decide, rfl⟩

theorem witness_LegalInputsNeverStop :
    ∀ x ∈ [.reset, .idle, .command { cmd := 0xB3#8, wdata := 0#64 }], legalInput x = true := by decide

theorem witness_CrossWidthIndependence :
    (Instr.jump128).unit ≠ .g256 ∧ (Instr.jump256).unit ≠ .g128 ∧ (Instr.toFloat 0#64).unit ≠ .g128 := by decide

theorem witness_StreamOfNext :
    Quiet blank ∧ (∀ k v, Instr.lds128 k v ∉ [Instr.next128, .next256, .toFloat 0#64, .next128]) ∧
      Instr.jump128 ∉ [Instr.next128, .next256, .toFloat 0#64, .next128] ∧
      (∀ k v, Instr.lds256 k v ∉ [Instr.next256, .jump128]) ∧ Instr.jump256 ∉ [Instr.next256, .jump128] :=
  ⟨by decide, by simp, by decide, by simp, by decide⟩

/-- Two instances that differ in `S128` and in the reset count, and a caller that loads both words before NEXT128, does it
again after a reset, then errs. -/
theorem witness_LoadedRunsHideUnspecifiedContent :
    let load : List Input := [.command { cmd := 0x61#8, wdata := 2#64 }, .command { cmd := 0x60#8, wdata := 1#64 }]
    let next : Input := .command { cmd := 0x40#8, wdata := 0#64 }
    let xs := load ++ next :: .reset :: load ++ [next, .command { cmd := 0x41#8, wdata := 0#64 }]
    let s := { with128 0 0 with port := xs }
    let u := { with128 5 6 with port := xs, resets := 7 }
    Idle s ∧ Idle u ∧ u.port = s.port ∧ u.ci = s.ci ∧ u.responses = s.responses ∧ LoadsBeforeUse Loaded.none s.port ∧
      seen (fun t => t.responses) (runWith step 7 u) = some [none, none, some 3] ∧
      refusal (runWith step 8 s) = some (.reservedCode .idxNonzero 0x41#8) := by
  have both : ∀ i, ((Loaded.none.after (.lds128 1 2#64)).after (.lds128 0 1#64)).g128 i = true := fun i => by
    match i with
    | 0 => rfl
    | 1 => rfl
  exact ⟨by decide, by decide, rfl, rfl, rfl,
    ⟨trivial, trivial, both, trivial, trivial, both, trivial⟩, by decide, by decide⟩

/-- Commands with a reset and the next run behind them; an ended run with an idle slot, and one with nothing, waiting. -/
theorem witness_RunOfCommandsEnds :
    let rest : List Input := [.idle, .reset, .command { cmd := 0x40#8, wdata := 0#64 }]
    Idle blank ∧ (∀ c ∈ [{ cmd := 0x50#8, wdata := 0#64 }, { cmd := 0xC0#8, wdata := 1#64 }], legalCode c = true) ∧
      commandWaiting rest = false ∧ ended blank = true ∧ ended (withPort rest) = true ∧
      (∀ r, (withPort rest).port ≠ .reset :: r) :=
  ⟨by decide, by decide, rfl, rfl, rfl, fun r h => nomatch h⟩

/-- A run that is followed by a reset has ended before its record is wiped; one with a command waiting has not. -/
theorem test_ended_before_reset :
    ended (withPort [.reset, .command { cmd := 0x40#8, wdata := 0#64 }]) = true ∧
      ended (withPort [.idle, .command { cmd := 0x40#8, wdata := 0#64 }]) = false ∧
      ended { withPort [.idle] with busy128 := true } = false := by decide

/-- Two instances: the first meets a reserved code and is stopped, the second still takes its NEXT128 (R36, R74). -/
theorem test_stopped_instance_leaves_others :
    let y : System 2 := { cores := #v[.running blank, .running (with128 1 2)] }
    let z := systemEvents [(0, .present (.command { cmd := 0x41#8, wdata := 0#64 })), (0, .advance),
      (1, .present (.command { cmd := 0x40#8, wdata := 0#64 })), (1, .advance)] y
    z.cores[0] = .stopped (withCode 0x41#8) (.reservedCode .idxNonzero 0x41#8) ∧
      z.cores[1] = .running { with128 0x1030003 0x6000000000 with ci := 1, responses := [some 3] } := by decide

/-- A reset listed behind a command that waits does not overtake it (log 21): the jump goes on. -/
theorem test_reset_behind_waiting_command :
    seen (fun t => (t.busy128, t.jc128, t.resets))
        (microStep { withPort [.command { cmd := 0xC0#8, wdata := 0#64 }, .reset] with busy128 := true, jc128 := 5#7 }) =
      some (true, 6#7, 0) := by decide

/-- For MicroStepRunEndsAsAtomicRun: a reset behind a JUMP, an idle slot between. -/
theorem witness_MicroStepRunEndsAsAtomicRun :
    Idle (withPort [.command { cmd := 0x50#8, wdata := 0#64 }, .idle, .reset]) := by decide

/-- For WellFormedLinesRun (both clauses), SeedThenLaneLeavesLaneState and NextThenToFloatOfLast. -/
theorem witness_WellFormedLinesRun :
    Quiet blank ∧ AsmLine.programWf [.next128, .toFloat .last] = true ∧ AsmLine.programWf [.toFloat .last] = false := by
  decide

end Sys2Proof.Tests
end

section
/-! The arithmetic primitives of R7, read as numbers and bit by bit. -/

namespace Sys2Proof.Machine

theorem wrapAdd_toNat (a b : Word) : (wrapAdd a b).toNat = (a.toNat + b.toNat) % 2 ^ 64 := by
  rw [wrapAdd_eq_add, BitVec.toNat_add]

@[simp] theorem bit_xor (a b : Word) (i : Nat) : bit (a ^^^ b) i = (bit a i != bit b i) := BitVec.getLsbD_xor

@[simp] theorem bit_or (a b : Word) (i : Nat) : bit (a ||| b) i = (bit a i || bit b i) := BitVec.getLsbD_or

/-- A left shift fills with zeros from below and drops what passes bit 63. -/
theorem bit_shiftLeft (x : Word) (k j : Nat) (hj : j < 64) :
    bit (x <<< k) j = (!decide (j < k) && bit x (j - k)) := by
  rw [bit, BitVec.getLsbD_shiftLeft, decide_eq_true hj, Bool.true_and, bit]

theorem bit_shiftRight (x : Word) (k j : Nat) : bit (x >>> k) j = bit x (k + j) := BitVec.getLsbD_ushiftRight ..

/-- A word has no bits above bit 63. -/
theorem bit_of_ge (x : Word) {i : Nat} (h : 64 ≤ i) : bit x i = false := BitVec.getLsbD_of_ge x i h

/-- Of the two halves of `rotl`, the left shift carries the bits that stay below 64 and the right shift those that wrap. -/
theorem bit_rotl (x : Word) {k i : Nat} (hk0 : 0 < k) (hk : k < 64) (hi : i < 64) :
    bit (rotl x k) ((i + k) % 64) = bit x i := by
  rw [rotl, bit_or, bit_shiftRight, bit_shiftLeft _ _ _ (Nat.mod_lt _ (by decide))]
  rcases Nat.lt_or_ge (i + k) 64 with stays | wraps
  · rw [Nat.mod_eq_of_lt stays, bit_of_ge x (i := 64 - k + (i + k)) (by omega)]
    simp
  · have hpos : (i + k) % 64 = i + k - 64 := by omega
    have hleft : i + k - 64 < k := by omega
    have hright : 64 - k + (i + k - 64) = i := by omega
    simp [hpos, hleft, hright]

theorem bit_eq_true_iff (x : Word) (i : Nat) : bit x i = true ↔ x.toNat / 2 ^ i % 2 = 1 := by
  rw [bit, ← BitVec.testBit_toNat, Nat.testBit_eq_decide_div_mod_eq, decide_eq_true_iff]

/-- Settles O24 (R7): one lemma for each primitive of the model, and the library's reading of the two shifts. -/
theorem arithmeticPrimitives : Obligations.ArithmeticPrimitives := by
  refine ⟨wrapAdd_toNat, fun a b i _ => bit_xor a b i, fun a b i _ => bit_or a b i, ?shiftLeft, ?shiftRight,
    fun x _ _ hk0 hk hi => bit_rotl x hk0 hk hi, fun x i _ => bit_eq_true_iff x i⟩
  case shiftLeft =>
    intro a k _ _
    rw [BitVec.toNat_shiftLeft, Nat.shiftLeft_eq]
  case shiftRight =>
    intro a k _ _
    rw [BitVec.toNat_ushiftRight, Nat.shiftRight_eq_div_pow]

end Sys2Proof.Machine
end

section
/-! The six words of the jump polynomials, checked as R15 and R16 check them, and the run invariant at reset. -/

namespace Sys2Proof.Machine

/-- Settles O27 (R15, R16): the words are the model's by definition; the counts and the ends of the lists of set bit
positions are evaluated on these constants. -/
theorem jumpPolynomialWords : Obligations.JumpPolynomialWords := by
  exact ⟨rfl, rfl, by decide +kernel⟩

/-- Settles O45 (R23, R87, R95): at reset no command has completed, no response has been given and no engine is busy. -/
theorem resetHasRunInvariant : Obligations.ResetHasRunInvariant := by
  have record : State.reset.responses.length = State.reset.ci := by simp
  have engines : ¬(State.reset.busy128 = true ∧ State.reset.busy256 = true) := by simp
  exact ⟨record, engines⟩

end Sys2Proof.Machine
end

section
/-! What an idle CORE does at its port, one equation for each input it may find there (R31, R41, R86, R87). The case of
a command that decodes is `portStep_of_command`. -/

namespace Sys2Proof.Machine

open Sys2Proof.Safety

theorem step_of_nothing {s : State} (hs : Idle s) (hp : s.port = []) : step s = .next s := by
  simp [step, portStep, hp, tick_of_idle hs]

theorem step_of_idleSlot {s : State} {rest : List Input} (hs : Idle s) (hp : s.port = .idle :: rest) :
    step s = .next { s with port := rest } := by
  have still : tick { s with port := rest } = { s with port := rest } := tick_of_idle hs
  simp [step, portStep, hp, still]

theorem step_of_reset {s : State} {rest : List Input} (hp : s.port = .reset :: rest) :
    step s = .next (resetEvent { s with port := rest }) := by
  simp [step, portStep, hp]

theorem step_of_reserved {s : State} {c : Command} {rest : List Input} {why : Reserved} (hs : Idle s)
    (hp : s.port = .command c :: rest) (hd : decode c = .error why) :
    step s = .refused (.reservedCode why c.cmd) := by
  simp [step, portStep, hp, busy, hs.1, hs.2, accept, hd]

/-- No meaning touches the port. -/
theorem exec_port {c : Instr} {s t : State} (h : exec c s = .next t) : t.port = s.port := by
  obtain ⟨t', -, ht', -, -, port, -⟩ := exec_answers c s
  obtain rfl : t = t' := Host.Outcome.next.inj (h.symm.trans ht')
  exact port

end Sys2Proof.Machine
end

section
/-! A caller that loads before it uses sees nothing of what the registers held before (R23, R89). Two idle instances are
related when they agree on the port, on the record and on the words loaded since reset; a step that the caller may take
keeps them so, or stops both alike. -/

namespace Sys2Proof.Machine

open Sys2Proof.Safety

/-- Two idle instances with the same inputs and the same record, whose state words agree where `l` says they have been
loaded. Nothing is asked of the other words, of the hidden registers or of the reset count. -/
structure AgreeOnLoaded (l : Loaded) (s u : State) : Prop where
  idle_left : Idle s
  idle_right : Idle u
  port : u.port = s.port
  ci : u.ci = s.ci
  responses : u.responses = s.responses
  words128 : ∀ i, l.g128 i = true → word128 u.s128 i = word128 s.s128 i
  words256 : ∀ i, l.g256 i = true → word256 u.s256 i = word256 s.s256 i

namespace AgreeOnLoaded

variable {l : Loaded} {s u : State}

theorem s128_eq (h : AgreeOnLoaded l s u) (loaded : ∀ i, l.g128 i = true) : u.s128 = s.s128 :=
  words2_eq_of_word128 fun i => h.words128 i (loaded i)

theorem s256_eq (h : AgreeOnLoaded l s u) (loaded : ∀ i, l.g256 i = true) : u.s256 = s.s256 :=
  words4_eq_of_word256 fun i => h.words256 i (loaded i)

theorem withPort (h : AgreeOnLoaded l s u) (rest : List Input) :
    AgreeOnLoaded l { s with port := rest } { u with port := rest } :=
  { h with port := rfl }

theorem complete (h : AgreeOnLoaded l s u) (r : Option Word) :
    AgreeOnLoaded l (complete r s) (complete r u) :=
  { h with ci := by simp [h.ci], responses := by simp [h.responses] }

/-- After a reset nothing is loaded, so nothing is asked of the words. -/
theorem resetEvent (h : AgreeOnLoaded l s u) : AgreeOnLoaded Loaded.none (resetEvent s) (resetEvent u) where
  idle_left := ⟨rfl, rfl⟩
  idle_right := ⟨rfl, rfl⟩
  port := h.port
  ci := rfl
  responses := rfl
  words128 := fun _ loaded => nomatch loaded
  words256 := fun _ loaded => nomatch loaded

/-- The word a load writes agrees from then on; the others agree where they did. -/
theorem writeS128 (h : AgreeOnLoaded l s u) (i : Fin 2) (v : Word) :
    AgreeOnLoaded (l.after (.lds128 i v)) (writeS128 s i v) (writeS128 u i v) :=
  { h with
    words128 := fun j loaded => by
      by_cases hj : j = i
      · subst hj; simp
      · have before : l.g128 j = true := by simpa [Loaded.after, hj] using loaded
        simpa [word128_setWord128_other _ _ _ _ hj] using h.words128 j before }

/-- The same for G256. -/
theorem writeS256 (h : AgreeOnLoaded l s u) (i : Fin 4) (v : Word) :
    AgreeOnLoaded (l.after (.lds256 i v)) (writeS256 s i v) (writeS256 u i v) :=
  { h with
    words256 := fun j loaded => by
      by_cases hj : j = i
      · subst hj; simp
      · have before : l.g256 j = true := by simpa [Loaded.after, hj] using loaded
        simpa [word256_setWord256_other _ _ _ _ hj] using h.words256 j before }

theorem setS128 (h : AgreeOnLoaded l s u) (w : Words2) :
    AgreeOnLoaded l { s with s128 := w } { u with s128 := w } :=
  { h with words128 := fun _ _ => rfl }

theorem setS256 (h : AgreeOnLoaded l s u) (w : Words4) :
    AgreeOnLoaded l { s with s256 := w } { u with s256 := w } :=
  { h with words256 := fun _ _ => rfl }

/-- A jump that ends with the same words on both sides leaves both idle; its hidden registers are not compared (R50). -/
theorem finishJump128 (h : AgreeOnLoaded l s u) (w : Words2) (b : BitVec 7) :
    AgreeOnLoaded l { s with s128 := w, acc128 := w, jc128 := b, busy128 := false }
      { u with s128 := w, acc128 := w, jc128 := b, busy128 := false } :=
  { h.setS128 w with idle_left := ⟨rfl, h.idle_left.2⟩, idle_right := ⟨rfl, h.idle_right.2⟩ }

/-- The same for G256 (R60). -/
theorem finishJump256 (h : AgreeOnLoaded l s u) (w : Words4) (b : BitVec 8) :
    AgreeOnLoaded l { s with s256 := w, acc256 := w, jc256 := b, busy256 := false }
      { u with s256 := w, acc256 := w, jc256 := b, busy256 := false } :=
  { h.setS256 w with idle_left := ⟨h.idle_left.1, rfl⟩, idle_right := ⟨h.idle_right.1, rfl⟩ }

/-- A command whose generator is loaded answers alike: what it reads is equal, so what it writes and delivers is. -/
theorem exec_alike (h : AgreeOnLoaded l s u) {i : Instr} (allowed : l.allows i) :
    ∃ t v, exec i s = .next t ∧ exec i u = .next v ∧ AgreeOnLoaded (l.after i) t v := by
  cases i with
  | next128 =>
    refine ⟨_, _, rfl, rfl, ?_⟩
    rw [h.s128_eq allowed]
    exact (h.setS128 _).complete _
  | jump128 =>
    refine ⟨_, _, rfl, rfl, ?_⟩
    rw [h.s128_eq allowed]
    exact (h.finishJump128 _ _).complete _
  | lds128 i v => exact ⟨_, _, rfl, rfl, (h.writeS128 i v).complete _⟩
  | rds128 i =>
    refine ⟨_, _, rfl, rfl, ?_⟩
    rw [readS128, readS128, h.s128_eq allowed]
    exact h.complete _
  | next256 =>
    refine ⟨_, _, rfl, rfl, ?_⟩
    rw [h.s256_eq allowed]
    exact (h.setS256 _).complete _
  | jump256 =>
    refine ⟨_, _, rfl, rfl, ?_⟩
    rw [h.s256_eq allowed]
    exact (h.finishJump256 _ _).complete _
  | lds256 i v => exact ⟨_, _, rfl, rfl, (h.writeS256 i v).complete _⟩
  | rds256 i =>
    refine ⟨_, _, rfl, rfl, ?_⟩
    rw [readS256, readS256, h.s256_eq allowed]
    exact h.complete _
  | toFloat v => exact ⟨_, _, rfl, rfl, h.complete _⟩

end AgreeOnLoaded

/-- Two instances that a caller who keeps R89 cannot tell apart, now or later: they agree on what has been loaded, and the
inputs still to come load the rest before they use it. -/
def SeenAlike (s u : State) : Prop := ∃ l, AgreeOnLoaded l s u ∧ LoadsBeforeUse l s.port

/-- Two outcomes a caller cannot tell apart: next states that are seen alike, or the same refusal. -/
def OutcomesAlike (x y : Host.Outcome State Fault Refusal) : Prop :=
  (∃ t v, x = .next t ∧ y = .next v ∧ SeenAlike t v) ∨ (∃ r, x = .refused r ∧ y = .refused r)

/-- The step is blind to what the two differ in, input by input. -/
theorem SeenAlike.step_alike {s u : State} (h : SeenAlike s u) : OutcomesAlike (step s) (step u) := by
  obtain ⟨l, agree, loads⟩ := h
  have hs := agree.idle_left
  have hu := agree.idle_right
  cases hp : s.port with
  | nil =>
    exact .inl ⟨s, u, step_of_nothing hs hp, step_of_nothing hu (agree.port.trans hp), l, agree, loads⟩
  | cons x rest =>
    have hp' : u.port = x :: rest := agree.port.trans hp
    rw [hp] at loads
    cases x with
    | idle => exact .inl ⟨_, _, step_of_idleSlot hs hp, step_of_idleSlot hu hp', l, agree.withPort rest, loads⟩
    | reset =>
      exact .inl ⟨_, _, step_of_reset hp, step_of_reset hp', Loaded.none, (agree.withPort rest).resetEvent, loads⟩
    | command c =>
      rw [LoadsBeforeUse] at loads
      cases hd : decode c with
      | error why => exact .inr ⟨_, step_of_reserved hs hp hd, step_of_reserved hu hp' hd⟩
      | ok i =>
        rw [hd] at loads
        obtain ⟨allowed, loads⟩ := loads
        obtain ⟨t, v, ht, hv, after⟩ := (agree.withPort rest).exec_alike allowed
        have port : t.port = rest := exec_port ht
        rw [← port] at loads
        exact .inl ⟨t, v, (portStep_of_command hs hp hd).trans ht, (portStep_of_command hu hp' hd).trans hv,
          l.after i, after, loads⟩

theorem SeenAlike.run_alike {s u : State} (h : SeenAlike s u) (n : Nat) :
    OutcomesAlike (runWith step n s) (runWith step n u) := by
  induction n generalizing s u with
  | zero => exact .inl ⟨s, u, rfl, rfl, h⟩
  | succ n ih =>
    obtain ⟨t, v, ht, hv, alike⟩ | ⟨r, hr, hr'⟩ := h.step_alike
    · rw [runWith, runWith, ht, hv]
      exact ih alike
    · exact .inr ⟨r, by rw [runWith, hr], by rw [runWith, hr']⟩

/-- Settles O53 (R23, R89), by induction on the number of steps: before anything is loaded the two instances agree on all
that has been loaded, and every step keeps that or refuses alike. -/
theorem loadedRunsHideUnspecifiedContent : Obligations.LoadedRunsHideUnspecifiedContent := by
  intro s u n hs hu port ci responses loads
  have atStart : AgreeOnLoaded Loaded.none s u :=
    { idle_left := hs, idle_right := hu, port, ci, responses
      words128 := fun _ loaded => nomatch loaded
      words256 := fun _ loaded => nomatch loaded }
  obtain ⟨t, v, ht, hv, l, agree, -⟩ | ⟨r, hr, hr'⟩ := SeenAlike.run_alike ⟨Loaded.none, atStart, loads⟩ n
  · rw [ht, hv]
    refine ⟨?next, fun _ stops => nomatch stops⟩
    rintro _ ⟨⟩
    exact ⟨v, rfl, agree.responses, agree.ci, agree.port⟩
  · rw [hr, hr']
    exact ⟨fun _ goesOn => (nomatch goesOn), fun _ stops => stops⟩

end Sys2Proof.Machine
end

section
/-! What every step keeps (R31, R46, R92). A property that reset gives and that neither the port nor a tick can break is
kept by a step at the port as soon as the accepted commands keep it; the run invariant and idleness are two of them. -/

namespace Sys2Proof.Machine

open Sys2Proof.Safety

theorem idle_of_not_busy {s : State} (h : busy s = false) : Idle s := by
  simpa [busy] using h

/-- The step of induction behind every invariant of the port: the accepted command is the only case that depends on the
machine, and it is met in idle states only. -/
theorem portStep_preserves {P : State → Prop} {run : Instr → State → Host.Outcome State Fault Refusal} {s t : State}
    (port : ∀ u rest, P u → P { u with port := rest }) (ticks : ∀ u, P u → P (tick u)) (resets : ∀ u, P (resetEvent u))
    (runs : ∀ c u v, Idle u → P u → run c u = .next v → P v) (h : portStep run s = .next t) (hs : P s) : P t := by
  have lands {u : State} (e : portStep run s = .next u) (hu : P u) : P t :=
    Host.Outcome.next.inj (e.symm.trans h) ▸ hu
  obtain ⟨-, e⟩ | ⟨rest, -, e⟩ | ⟨rest, -, e⟩ | ⟨_, _, -, -, e⟩ | ⟨_, rest, i, -, hb, -, e⟩ | ⟨_, _, _, -, -, -, e⟩ :=
    portStep_cases run s
  · exact lands e (ticks s hs)
  · exact lands e (resets _)
  · exact lands e (ticks _ (port s rest hs))
  · exact lands e (ticks s hs)
  · exact runs i { s with port := rest } t (idle_of_not_busy hb) (port s rest hs) (e.symm.trans h)
  · exact nomatch e.symm.trans h

theorem runInv_resetEvent (s : State) : RunInv (resetEvent s) := ⟨rfl, by simp⟩

/-- Completing adds to both sides of the record, and sets no flag. -/
theorem runInv_complete {s : State} (h : RunInv s) (r : Option Word) : RunInv (complete r s) := by
  obtain ⟨record, engines⟩ := h
  exact ⟨by simp [record], engines⟩

/-- A micro-step of G128 completes the command or goes on with the flag as it was. -/
theorem runInv_micro128 {s : State} (h : RunInv s) : RunInv (micro128 s) := by
  obtain ⟨record, engines⟩ := h
  rw [micro128]
  split_ifs
  · apply runInv_complete
    exact ⟨record, by simp⟩
  · exact ⟨record, engines⟩

/-- The same for G256. -/
theorem runInv_micro256 {s : State} (h : RunInv s) : RunInv (micro256 s) := by
  obtain ⟨record, engines⟩ := h
  rw [micro256]
  split_ifs
  · apply runInv_complete
    exact ⟨record, by simp⟩
  · exact ⟨record, engines⟩

theorem runInv_tick {s : State} (h : RunInv s) : RunInv (tick s) := by
  unfold tick
  split_ifs
  · exact runInv_micro128 h
  · exact runInv_micro256 h
  · exact h

/-- From an idle state a meaning adds one entry and counts one command, and no engine is busy after it. -/
theorem runInv_exec {c : Instr} {s t : State} (idle : Idle s) (h : RunInv s) (he : exec c s = .next t) : RunInv t := by
  obtain ⟨t', r, ht', responses, ci, -, -⟩ := exec_answers c s
  obtain rfl : t = t' := Host.Outcome.next.inj (he.symm.trans ht')
  obtain ⟨record, -⟩ := h
  obtain ⟨rests128, -⟩ := exec_keeps_idle he idle
  exact ⟨by simp [responses, ci, record], by simp [rests128]⟩

/-- The two machines differ in the JUMPs only. -/
theorem launch_eq_exec {c : Instr} (h128 : c ≠ .jump128) (h256 : c ≠ .jump256) (s : State) : launch c s = exec c s := by
  cases c with
  | jump128 => exact absurd rfl h128
  | jump256 => exact absurd rfl h256
  | next128 | lds128 | rds128 | next256 | lds256 | rds256 | toFloat => rfl

/-- A JUMP accepted in an idle state starts one engine beside one that rests, and completes nothing. -/
theorem runInv_launch {c : Instr} {s t : State} (idle : Idle s) (h : RunInv s) (hl : launch c s = .next t) :
    RunInv t := by
  have record : s.responses.length = s.ci := h.1
  have rests128 : s.busy128 = false := idle.1
  have rests256 : s.busy256 = false := idle.2
  by_cases h128 : c = .jump128
  · subst h128
    obtain rfl := Host.Outcome.next.inj hl
    exact ⟨record, by simp [rests256]⟩
  · by_cases h256 : c = .jump256
    · subst h256
      obtain rfl := Host.Outcome.next.inj hl
      exact ⟨record, by simp [rests128]⟩
    · exact runInv_exec idle h ((launch_eq_exec h128 h256 s).symm.trans hl)

/-- Settles O46 (R28, R31, R37, R46): the run invariant and idleness are kept by the port, by ticks, by reset and by every
meaning. -/
theorem stepKeepsRunInvariant : Obligations.StepKeepsRunInvariant := by
  intro s t h
  constructor
  · exact portStep_preserves (fun _ _ hu => hu) (fun _ => runInv_tick) runInv_resetEvent (fun _ _ _ => runInv_exec) h
  · exact portStep_preserves (fun _ _ hu => hu) (fun u hu => (tick_of_idle hu).symm ▸ hu) (fun _ => ⟨rfl, rfl⟩)
      (fun _ _ _ idle _ he => exec_keeps_idle he idle) h

/-- Settles O47 (R31, R46, R92): as O46, an accepted JUMP now starting its engine. -/
theorem microStepKeepsRunInvariant : Obligations.MicroStepKeepsRunInvariant := by
  intro s t hs h
  exact portStep_preserves (fun _ _ hu => hu) (fun _ => runInv_tick) runInv_resetEvent (fun _ _ _ => runInv_launch) h hs

end Sys2Proof.Machine
end

section
/-! A command accepted by an idle CORE, and what a load leaves for the next read (R31, R37, R52, R53, R62, R63). -/

namespace Sys2Proof.Machine

open Sys2Proof.Safety

/-- Settles O7 (R31, R37): the port's rule for an idle CORE, for the atomic meaning. -/
theorem stepRunsDecodedCommand : Obligations.StepRunsDecodedCommand := by
  intro s c rest i hs hp hd
  exact portStep_of_command hs hp hd

/-- An instruction comes back from the command that encodes it (R38 to R40). -/
theorem decode_encode (i : Instr) : decode (encode i) = .ok i := by
  cases i with
  | next128 | jump128 | next256 | jump256 => rfl
  | toFloat v => exact (rfl : decode { cmd := 0xC0#8, wdata := v } = .ok (.toFloat v))
  | lds128 i | rds128 i | lds256 i | rds256 i =>
    simp only [encode, encodeCode, encodeWdata]
    fin_cases i <;> rfl

/-- A response holds a value exactly when the command's row says that it delivers one (R37, R40). -/
theorem exec_response (i : Instr) (s : State) :
    ∃ t r, exec i s = .next t ∧ t.responses = s.responses ++ [r] ∧ r.isSome = i.deliversRdata := by
  cases i <;> exact ⟨complete _ _, _, rfl, complete_responses _ _, rfl⟩

/-- All that one accepted command does to the port and the record: it is taken off, it counts, it is answered, and
CORE is idle for the next. -/
theorem step_of_command {s : State} {c : Command} {rest : List Input} {i : Instr} (hs : Idle s)
    (hp : s.port = .command c :: rest) (hd : decode c = .ok i) :
    ∃ t r, step s = .next t ∧ exec i { s with port := rest } = .next t ∧ Idle t ∧ t.port = rest ∧ t.ci = s.ci + 1 ∧
      t.responses = s.responses ++ [r] ∧ r.isSome = i.deliversRdata := by
  obtain ⟨t, r, he, responses, value⟩ := exec_response i { s with port := rest }
  obtain ⟨t', _, he', -, ci, port, -⟩ := exec_answers i { s with port := rest }
  obtain rfl : t = t' := Host.Outcome.next.inj (he.symm.trans he')
  exact ⟨t, r, (portStep_of_command hs hp hd).trans he, he, exec_keeps_idle he hs, port, ci, responses, value⟩

theorem word128_setWord128 (r : Words2) (i j : Fin 2) (v : Word) :
    word128 (setWord128 r i v) j = if j = i then v else word128 r j := by
  split_ifs with h
  · rw [h, word128_setWord128_same]
  · exact word128_setWord128_other r i j v h

theorem word256_setWord256 (r : Words4) (i j : Fin 4) (v : Word) :
    word256 (setWord256 r i v) j = if j = i then v else word256 r j := by
  split_ifs with h
  · rw [h, word256_setWord256_same]
  · exact word256_setWord256_other r i j v h

/-- Settles O54 (R31, R52, R53, R62, R63): the load and the read each complete, and the word read is read after write. -/
theorem loadThenReadReturnsWord : Obligations.LoadThenReadReturnsWord := by
  constructor
  · intro s i j v
    exact ⟨complete none (writeS128 s i v), _, rfl, rfl, by simp [readS128, word128_setWord128], rfl⟩
  · intro s i j v
    exact ⟨complete none (writeS256 s i v), _, rfl, rfl, by simp [readS256, word256_setWord256], rfl⟩

end Sys2Proof.Machine
end

section
/-! A run of legal commands ends, with an answer for each of them, and stands until a reset (R31, R46, R86, R95). -/

namespace Sys2Proof.Machine

open Sys2Proof.Safety

theorem ended_iff (s : State) : ended s = true ↔ commandWaiting s.port = false ∧ Idle s := by
  simp [ended, busy]

theorem decode_of_legalCode {c : Command} (h : legalCode c = true) : ∃ i, decode c = .ok i := by
  cases hd : decode c with
  | ok i => exact ⟨i, rfl⟩
  | error why => simp [legalCode, hd] at h

theorem delivers_of_decode {c : Command} {i : Instr} (hd : decode c = .ok i) : delivers c = i.deliversRdata := by
  simp [delivers, hd]

/-- Legal commands at the head of an idle CORE's port are taken one per step. The new entries `rs` of the record answer
them in order, with a value where the command delivers one. -/
theorem run_commands (cs : List Command) (rest : List Input) {s : State} (hs : Idle s)
    (legal : ∀ c ∈ cs, legalCode c = true) (hp : s.port = cs.map .command ++ rest) :
    ∃ t rs, runWith step cs.length s = .next t ∧ Idle t ∧ t.port = rest ∧ t.ci = s.ci + cs.length ∧
      t.responses = s.responses ++ rs ∧ rs.map Option.isSome = cs.map delivers := by
  induction cs generalizing s with
  | nil => exact ⟨s, [], rfl, hs, hp, rfl, by simp, rfl⟩
  | cons c cs ih =>
    obtain ⟨i, hd⟩ := decode_of_legalCode (legal c (by simp))
    obtain ⟨t, r, ht, -, idle, port, ci, responses, value⟩ := step_of_command hs hp hd
    obtain ⟨u, rs, hu, idle', port', ci', responses', values⟩ := ih idle (fun d hd => legal d (by simp [hd])) port
    refine ⟨u, r :: rs, ?_, idle', port', ?_, ?_, ?_⟩
    · rw [List.length_cons, runWith, ht]
      exact hu
    · rw [ci', ci, List.length_cons, Nat.add_assoc, Nat.add_comm 1]
    · rw [responses', responses, List.append_assoc, List.singleton_append]
    · rw [List.map_cons, List.map_cons, values, value, delivers_of_decode hd]

/-- The values among the answers are as many as the commands that deliver one. -/
theorem length_values {rs : List (Option Word)} {cs : List Command} (h : rs.map Option.isSome = cs.map delivers) :
    (rs.filterMap id).length = cs.countP delivers := by
  calc (rs.filterMap id).length
      = (rs.map Option.isSome).countP id := by rw [List.length_filterMap_eq_countP, List.countP_map]; rfl
    _ = (cs.map delivers).countP id := by rw [h]
    _ = cs.countP delivers := by rw [List.countP_map]; rfl

/-- With no command of the run waiting and no reset at the head of the port, an idle CORE at most takes an idle slot. -/
theorem step_of_ended {s : State} (h : ended s = true) (noReset : ∀ rest, s.port ≠ .reset :: rest) :
    ∃ rest, step s = .next { s with port := rest } ∧ commandWaiting rest = false := by
  obtain ⟨waiting, idle⟩ := (ended_iff s).1 h
  cases hp : s.port with
  | nil => exact ⟨s.port, step_of_nothing idle hp, waiting⟩
  | cons x rest =>
    rw [hp] at waiting
    cases x with
    | idle => exact ⟨rest, step_of_idleSlot idle hp, waiting⟩
    | reset => exact absurd hp (noReset rest)
    | command c => exact nomatch waiting

/-- Settles O55 (R31, R46, R86, R95): the commands are taken one per step by induction on their list, and an ended run has
nothing left to do before a reset. -/
theorem runOfCommandsEnds : Obligations.RunOfCommandsEnds := by
  constructor
  · intro s cs rest hs legal noCommand
    obtain ⟨t, rs, ht, idle, port, ci, responses, values⟩ :=
      run_commands cs rest (s := { s with port := cs.map .command ++ rest }) hs legal rfl
    have answers : rs.length = cs.length := by simpa using congrArg List.length values
    refine ⟨t, ht, (ended_iff t).2 ⟨port ▸ noCommand, idle⟩, port, ci, by simp [responses, answers], ?_⟩
    rw [runResult, responses, List.filterMap_append, List.length_append, length_values values]
    rfl
  · intro s h noReset
    obtain ⟨rest, hstep, noCommand⟩ := step_of_ended h noReset
    exact ⟨_, hstep, (ended_iff _).2 ⟨noCommand, ((ended_iff s).1 h).2⟩, rfl, rfl⟩

end Sys2Proof.Machine
end

section
/-! The stream of outputs of a generator whose state only its NEXT command changes (R31, R48, R58), once for any register
that a command advances, then for the two generators. -/

namespace Sys2Proof.Machine

open Sys2Proof.Safety

/-- The first `n` outputs of a stream that starts at `x`, as the responses that deliver them. -/
def outputs {α : Type} (adv : α → α) (out : α → Word) (n : Nat) (x : α) : List (Option Word) :=
  (List.range n).map fun k => some (out (adv^[k] x))

theorem outputs_succ {α : Type} (adv : α → α) (out : α → Word) (n : Nat) (x : α) :
    outputs adv out (n + 1) x = some (out x) :: outputs adv out n (adv x) := by
  simp [outputs, List.range_succ_eq_map]

/-- The responses that the commands `c` got, of the instructions `is` and their responses `rs` in order, for any
command as `next128Responses` and `next256Responses` are for the two NEXT commands. -/
def responsesTo (c : Instr) (is : List Instr) (rs : List (Option Word)) : List (Option Word) :=
  ((is.zip rs).filter fun p => p.1 = c).map Prod.snd

theorem next128Responses_eq (is : List Instr) (rs : List (Option Word)) :
    next128Responses is rs = responsesTo .next128 is rs := rfl

theorem next256Responses_eq (is : List Instr) (rs : List (Option Word)) :
    next256Responses is rs = responsesTo .next256 is rs := rfl

theorem responsesTo_cons_same (c : Instr) (is : List Instr) (r : Option Word) (rs : List (Option Word)) :
    responsesTo c (c :: is) (r :: rs) = r :: responsesTo c is rs := by
  simp [responsesTo]

theorem responsesTo_cons_other {c i : Instr} (h : i ≠ c) (is : List Instr) (r : Option Word) (rs : List (Option Word)) :
    responsesTo c (i :: is) (r :: rs) = responsesTo c is rs := by
  simp [responsesTo, h]

/-- The command `next` advances the register `reg` by `adv` and delivers `out` of what the register held before. -/
structure Advances {α : Type} (next : Instr) (reg : State → α) (adv : α → α) (out : α → Word) : Prop where
  port : ∀ s rest, reg { s with port := rest } = reg s
  state : ∀ s t, exec next s = .next t → reg t = adv (reg s)
  response : ∀ s t, exec next s = .next t → t.responses = s.responses ++ [some (out (reg s))]

/-- Interleaved with commands that keep the register, the commands that advance it are answered by its stream. -/
theorem Advances.run {α : Type} {next : Instr} {reg : State → α} {adv : α → α} {out : α → Word}
    (g : Advances next reg adv out) (is : List Instr) {s : State} (hs : Idle s) (hp : s.port = commandsOf is)
    (keeps : ∀ i ∈ is, i ≠ next → ∀ s t, exec i s = .next t → reg t = reg s) :
    ∃ t rs, runWith step is.length s = .next t ∧ reg t = adv^[is.count next] (reg s) ∧
      t.responses = s.responses ++ rs ∧ responsesTo next is rs = outputs adv out (is.count next) (reg s) := by
  induction is generalizing s with
  | nil => exact ⟨s, [], rfl, rfl, by simp, rfl⟩
  | cons i is ih =>
    obtain ⟨t, r, ht, he, idle, port, -, responses, -⟩ := step_of_command hs hp (decode_encode i)
    obtain ⟨u, rs, hu, state, responses', stream⟩ := ih idle port fun j hj => keeps j (by simp [hj])
    have run : runWith step (i :: is).length s = .next u := by
      rw [List.length_cons, runWith, ht]
      exact hu
    have record : u.responses = s.responses ++ r :: rs := by
      rw [responses', responses, List.append_assoc, List.singleton_append]
    by_cases hi : i = next
    · subst hi
      have first : r = some (out (reg s)) := by
        simpa [g.port] using responses.symm.trans (g.response _ t he)
      have advanced : reg t = adv (reg s) := (g.state _ t he).trans (congrArg adv (g.port s _))
      refine ⟨u, r :: rs, run, ?_, record, ?_⟩
      · rw [state, advanced, List.count_cons_self, Function.iterate_succ_apply]
      · rw [responsesTo_cons_same, stream, advanced, first, List.count_cons_self, outputs_succ]
    · have kept : reg t = reg s := (keeps i (by simp) hi _ t he).trans (g.port s _)
      refine ⟨u, r :: rs, run, ?_, record, ?_⟩
      · rw [state, kept, List.count_cons_of_ne hi]
      · rw [responsesTo_cons_other hi, stream, kept, List.count_cons_of_ne hi]

/-- NEXT128 (R48). -/
theorem advances128 : Advances .next128 State.s128 step128 out128 where
  port _ _ := rfl
  state _ _ h := by rw [← Host.Outcome.next.inj h, complete_s128]
  response _ _ h := by rw [← Host.Outcome.next.inj h, complete_responses]

/-- NEXT256 (R58). -/
theorem advances256 : Advances .next256 State.s256 step256 out256 where
  port _ _ := rfl
  state _ _ h := by rw [← Host.Outcome.next.inj h, complete_s256]
  response _ _ h := by rw [← Host.Outcome.next.inj h, complete_responses]

/-- Only NEXT128, JUMP128 and LDS128 write `S128`. -/
theorem exec_keeps_s128 {i : Instr} {s t : State} (next : i ≠ .next128) (jump : i ≠ .jump128)
    (load : ∀ k v, i ≠ .lds128 k v) (h : exec i s = .next t) : t.s128 = s.s128 := by
  cases i with
  | next128 => exact absurd rfl next
  | jump128 => exact absurd rfl jump
  | lds128 k v => exact absurd rfl (load k v)
  | rds128 | next256 | jump256 | lds256 | rds256 | toFloat =>
    obtain rfl := Host.Outcome.next.inj h
    simp

/-- Only NEXT256, JUMP256 and LDS256 write `S256`. -/
theorem exec_keeps_s256 {i : Instr} {s t : State} (next : i ≠ .next256) (jump : i ≠ .jump256)
    (load : ∀ k v, i ≠ .lds256 k v) (h : exec i s = .next t) : t.s256 = s.s256 := by
  cases i with
  | next256 => exact absurd rfl next
  | jump256 => exact absurd rfl jump
  | lds256 k v => exact absurd rfl (load k v)
  | next128 | jump128 | lds128 | rds128 | rds256 | toFloat =>
    obtain rfl := Host.Outcome.next.inj h
    simp

/-- Settles O51 (R31, R48): the stream of a register that NEXT128 advances and no other command of the list writes. -/
theorem streamOfNext128 : Obligations.StreamOfNext128 := by
  intro s is quiet noLoad noJump
  have keeps : ∀ i ∈ is, i ≠ .next128 → ∀ s t, exec i s = .next t → t.s128 = s.s128 := fun i hi next _ _ =>
    exec_keeps_s128 next (fun e => noJump (e ▸ hi)) (fun k v e => noLoad k v (e ▸ hi))
  obtain ⟨t, rs, ht, state, responses, stream⟩ :=
    advances128.run is (s := { s with port := commandsOf is }) quiet.1 rfl keeps
  refine ⟨t, ht, state, ?_⟩
  rw [responses, List.drop_left, next128Responses_eq]
  exact stream

/-- Settles O52 (R31, R58): the same for NEXT256. -/
theorem streamOfNext256 : Obligations.StreamOfNext256 := by
  intro s is quiet noLoad noJump
  have keeps : ∀ i ∈ is, i ≠ .next256 → ∀ s t, exec i s = .next t → t.s256 = s.s256 := fun i hi next _ _ =>
    exec_keeps_s256 next (fun e => noJump (e ▸ hi)) (fun k v e => noLoad k v (e ▸ hi))
  obtain ⟨t, rs, ht, state, responses, stream⟩ :=
    advances256.run is (s := { s with port := commandsOf is }) quiet.1 rfl keeps
  refine ⟨t, ht, state, ?_⟩
  rw [responses, List.drop_left, next256Responses_eq]
  exact stream

end Sys2Proof.Machine
end

section
/-! Instances share nothing (R36). -/

namespace Sys2Proof.Machine

/-- Settles O59 (R36, R83, R74), by induction on the interleaving: an event changes core `k` exactly when it is
one of its own. -/
theorem interleavingsGiveSoloRuns : Obligations.InterleavingsGiveSoloRuns := by
  intro n es y k
  induction es generalizing y with
  | nil => rfl
  | cons event es ih =>
    obtain ⟨j, e⟩ := event
    have onward : systemEvents ((j, e) :: es) y = systemEvents es (systemEvent j e y) := rfl
    rw [onward, ih]
    by_cases h : k = j
    · subst h
      rw [systemEvent_same, eventsOf_same]
      rfl
    · rw [systemEvent_other h, eventsOf_other h]

end Sys2Proof.Machine
end

section
/-! The decoder as a function of the code: `wdata` enters only as the operand of the commands that take it (R37, R39), a
code decodes to the one instruction that is encoded to it (R38 to R40), and the seventeen codes are all that decode
(R40). -/

namespace Sys2Proof.Machine

/-- The instruction with its operand, where it takes one, replaced. -/
def replaceOperand (w : Word) : Instr → Instr
  | .lds128 i _ => .lds128 i w
  | .lds256 i _ => .lds256 i w
  | .toFloat _ => .toFloat w
  | .next128 => .next128
  | .jump128 => .jump128
  | .rds128 i => .rds128 i
  | .next256 => .next256
  | .jump256 => .jump256
  | .rds256 i => .rds256 i

theorem replaceOperand_of_takesNone {i : Instr} (h : i.takesWdata = false) (w : Word) : replaceOperand w i = i := by
  cases i with
  | next128 | jump128 | rds128 | next256 | jump256 | rds256 => rfl
  | lds128 | lds256 | toFloat => exact nomatch h

theorem encodeWdata_replaceOperand {i : Instr} (h : i.takesWdata = true) (w : Word) :
    encodeWdata (replaceOperand w i) = w := by
  cases i with
  | next128 | jump128 | rds128 | next256 | jump256 | rds256 => exact nomatch h
  | lds128 | lds256 | toFloat => rfl

theorem map_zeroMustBeZero (f : Instr → Instr) (c : Code) (r : Except Reserved Instr) :
    (zeroMustBeZero c r).map f = zeroMustBeZero c (r.map f) := by
  unfold zeroMustBeZero
  split <;> rfl

theorem map_idxMustBeZero (f : Instr → Instr) (c : Code) (i : Instr) :
    (idxMustBeZero c i).map f = idxMustBeZero c (f i) := by
  unfold idxMustBeZero
  split <;> rfl

theorem map_decode128 (c : Code) (v w : Word) : (decode128 c v).map (replaceOperand w) = decode128 c w := by
  unfold decode128
  cases funcField c with
  | next | jump => exact map_idxMustBeZero ..
  | lds | rds => cases idx128 c <;> rfl

theorem map_decode256 (c : Code) (v w : Word) : (decode256 c v).map (replaceOperand w) = decode256 c w := by
  unfold decode256
  cases funcField c with
  | next | jump => exact map_idxMustBeZero ..
  | lds | rds => rfl

theorem map_decodeFC (c : Code) (v w : Word) : (decodeFC c v).map (replaceOperand w) = decodeFC c w := by
  unfold decodeFC
  cases funcField c with
  | next => exact map_idxMustBeZero ..
  | jump | lds | rds => rfl

/-- Of two commands with the same code the decoder says the same, but for the operand: the one command's instruction
with the other's `wdata`, or the same rejection. -/
theorem decode_replace_wdata (c : Command) (w : Word) :
    decode { c with wdata := w } = (decode c).map (replaceOperand w) := by
  obtain ⟨cmd, v⟩ := c
  show decodeCode cmd w = (decodeCode cmd v).map (replaceOperand w)
  unfold decodeCode
  cases unitField cmd with
  | reserved => rfl
  | g128 => rw [map_zeroMustBeZero, map_decode128]
  | g256 => rw [map_zeroMustBeZero, map_decode256]
  | fc => rw [map_zeroMustBeZero, map_decodeFC]

theorem encodeCode_replaceOperand (w : Word) (i : Instr) : encodeCode (replaceOperand w i) = encodeCode i := by
  cases i <;> rfl

/-- The opcode map of R40, evaluated on all 256 codes: the seventeen decode, each to an instruction that is encoded to
that code, and no other does. -/
theorem encodeCode_decodeCode_zero : ∀ c : Code,
    (decodeCode c 0#64).toOption.map encodeCode = if c ∈ commandCodes then some c else none := by
  decide +kernel

/-- The same with any `wdata`. -/
theorem encodeCode_decode (c : Command) :
    (decode c).toOption.map encodeCode = if c.cmd ∈ commandCodes then some c.cmd else none := by
  have atZero : decodeCode c.cmd 0#64 = (decode c).map (replaceOperand 0#64) := decode_replace_wdata c 0#64
  rw [← encodeCode_decodeCode_zero, atZero]
  cases decode c with
  | ok i => exact congrArg some (encodeCode_replaceOperand 0#64 i).symm
  | error why => rfl

theorem mem_commandCodes_and_encodeCode_of_decode {c : Command} {i : Instr} (hd : decode c = .ok i) :
    c.cmd ∈ commandCodes ∧ encodeCode i = c.cmd := by
  have opcodeMap := encodeCode_decode c
  rw [hd] at opcodeMap
  by_cases mem : c.cmd ∈ commandCodes
  · rw [if_pos mem] at opcodeMap
    exact ⟨mem, Option.some.inj opcodeMap⟩
  · rw [if_neg mem] at opcodeMap
    exact nomatch opcodeMap

theorem encodeCode_of_decode {c : Command} {i : Instr} (hd : decode c = .ok i) : encodeCode i = c.cmd :=
  (mem_commandCodes_and_encodeCode_of_decode hd).2

theorem encodeWdata_of_decode {c : Command} {i : Instr} (hd : decode c = .ok i) (takes : i.takesWdata = true) :
    encodeWdata i = c.wdata := by
  have itself : .ok i = Except.map (replaceOperand c.wdata) (.ok i : Except Reserved Instr) := by
    rw [← hd]
    exact decode_replace_wdata c c.wdata
  rw [Except.ok.inj itself]
  exact encodeWdata_replaceOperand takes c.wdata

/-- The seventeen codes of R40 are the codes that decode, whatever `wdata` comes with them. -/
theorem decodes_iff (c : Command) : (∃ i, decode c = .ok i) ↔ c.cmd ∈ commandCodes := by
  constructor
  · rintro ⟨i, hd⟩
    exact (mem_commandCodes_and_encodeCode_of_decode hd).1
  · intro mem
    have opcodeMap := encodeCode_decode c
    rw [if_pos mem] at opcodeMap
    cases hd : decode c with
    | ok i => exact ⟨i, rfl⟩
    | error why =>
      rw [hd] at opcodeMap
      exact nomatch opcodeMap

/-- Every other code is rejected. -/
theorem decode_of_not_mem {c : Command} (h : c.cmd ∉ commandCodes) : ∃ why, decode c = .error why := by
  cases hd : decode c with
  | ok i => exact absurd ((decodes_iff c).1 ⟨i, hd⟩) h
  | error why => exact ⟨why, rfl⟩

/-- Settles O2 (R38 to R40). -/
theorem decodeOfEncode : Obligations.DecodeOfEncode := by
  intro i
  exact decode_encode i

/-- Settles O3 (R37, R39, R40): the code is looked at whole, and so is a `wdata` that is taken. -/
theorem encodeOfDecode : Obligations.EncodeOfDecode := by
  intro c i hd
  exact ⟨encodeCode_of_decode hd, encodeWdata_of_decode hd⟩

end Sys2Proof.Machine
end

section
/-! The opcode table (R40): no code fits two rows, the rows cover the seventeen codes, and the row of an instruction's
code is the instruction's. -/

namespace Sys2Proof.Machine

/-- A code that fits two rows has, under both masks, both their patterns. -/
theorem patterns_agree_of_fits {r q : OpcodeRow} {c : Code} (hr : r.fits c = true) (hq : q.fits c = true) :
    r.pattern &&& q.mask = q.pattern &&& r.mask := by
  have hr : c &&& r.mask = r.pattern := by simpa [OpcodeRow.fits] using hr
  have hq : c &&& q.mask = q.pattern := by simpa [OpcodeRow.fits] using hq
  rw [← hr, ← hq, BitVec.and_assoc, BitVec.and_comm r.mask, ← BitVec.and_assoc]

/-- Any two rows of the table differ in a bit that both look at. -/
theorem opcodeTable_patterns_differ :
    opcodeTable.Pairwise fun r q => r.pattern &&& q.mask ≠ q.pattern &&& r.mask := by
  decide

/-- The rows of the table fit the seventeen codes and no others of the 256. -/
theorem fits_iff_mem_commandCodes : ∀ c : Code, (∃ r ∈ opcodeTable, r.fits c = true) ↔ c ∈ commandCodes := by
  decide +kernel

/-- The family `EncodesInRow`, all nine instructions together. -/
theorem encodesInRow (i : Instr) : Laws.EncodesInRow.Statement i := by
  cases i with
  | next128 => exact Laws.EncodesInRow.next128
  | jump128 => exact Laws.EncodesInRow.jump128
  | lds128 i v => exact Laws.EncodesInRow.lds128 i v
  | rds128 i => exact Laws.EncodesInRow.rds128 i
  | next256 => exact Laws.EncodesInRow.next256
  | jump256 => exact Laws.EncodesInRow.jump256
  | lds256 i v => exact Laws.EncodesInRow.lds256 i v
  | rds256 i => exact Laws.EncodesInRow.rds256 i
  | toFloat v => exact Laws.EncodesInRow.toFloat v

/-- A row that fits an instruction's code is that instruction's. -/
theorem columns_of_fits {i : Instr} {r : OpcodeRow} (mem : r ∈ opcodeTable) (fits : r.fits (encodeCode i) = true) :
    (r.mnemonic, r.takesWdata, r.deliversRdata) = (i.mnemonic, i.takesWdata, i.deliversRdata) := by
  have among := List.mem_map_of_mem (f := fun r => (r.mnemonic, r.takesWdata, r.deliversRdata))
    (List.mem_filter (p := fun r => r.fits (encode i).cmd).2 ⟨mem, fits⟩)
  rw [encodesInRow i] at among
  exact List.mem_singleton.1 among

/-- Settles O4 (R40): decoder and table accept the seventeen codes, and the fitting row is found from the code that the
instruction is encoded to. -/
theorem decoderAgreesWithOpcodeTable : Obligations.DecoderAgreesWithOpcodeTable := by
  refine ⟨?accept, ?disjoint, ?columns⟩
  case accept =>
    intro c
    rw [decodes_iff, fits_iff_mem_commandCodes]
  case disjoint =>
    intro c
    exact opcodeTable_patterns_differ.imp fun differ ⟨hr, hq⟩ => differ (patterns_agree_of_fits hr hq)
  case columns =>
    intro c i r hd mem fits
    rw [← encodeCode_of_decode hd] at fits
    simpa using columns_of_fits mem fits

end Sys2Proof.Machine
end

section
/-! Reserved codes at the port, and `wdata` that no command takes (R37, R41, R73, R74). -/

namespace Sys2Proof.Machine

open Sys2Proof.Safety

/-- No command's code is in a class of R41. -/
theorem commandCodes_not_reserved : ∀ c ∈ commandCodes,
    ¬(c.extractLsb' 6 2 = 0b00#2 ∨
      c.extractLsb' 2 2 ≠ 0b00#2 ∨
      (c.getLsbD 5 = false ∧ c.extractLsb' 0 2 ≠ 0b00#2) ∨
      (c.extractLsb' 6 2 = 0b01#2 ∧ c.getLsbD 1 = true) ∨
      (c.extractLsb' 6 2 = 0b11#2 ∧ c.extractLsb' 4 2 ≠ 0b00#2)) := by
  decide

/-- Settles O5 (R41): a code of one of the classes is none of the seventeen, so it is rejected and the port refuses it;
the count is evaluated over the 256 codes. -/
theorem reservedCodesRefused : Obligations.ReservedCodesRefused := by
  refine ⟨?refused, by decide +kernel⟩
  intro s c rest hs hp reserved
  obtain ⟨why, hd⟩ := decode_of_not_mem fun mem => commandCodes_not_reserved c.cmd mem reserved
  exact ⟨why, step_of_reserved hs hp hd⟩

/-- A step answers a next state, or refuses a reserved code that an idle CORE was presented. -/
theorem step_next_or_reserved (s : State) :
    (∃ t, step s = .next t) ∨
    (∃ c rest why, s.port = .command c :: rest ∧ Idle s ∧ decode c = .error why ∧
      step s = .refused (.reservedCode why c.cmd)) := by
  obtain ⟨-, e⟩ | ⟨_, -, e⟩ | ⟨_, -, e⟩ | ⟨_, _, -, -, e⟩ | ⟨_, rest, i, -, -, -, e⟩ |
    ⟨c, rest, why, hp, hb, hd, e⟩ := portStep_cases exec s
  · exact .inl ⟨_, e⟩
  · exact .inl ⟨_, e⟩
  · exact .inl ⟨_, e⟩
  · exact .inl ⟨_, e⟩
  · obtain ⟨t, -, answers, -⟩ := exec_answers i { s with port := rest }
    exact .inl ⟨t, e.trans answers⟩
  · exact .inr ⟨c, rest, why, hp, idle_of_not_busy hb, hd, e⟩

/-- Settles O6 (R41, R73, R74): a step does one of two things, and only one of them stops. -/
theorem stopsOnlyOnReservedCode : Obligations.StopsOnlyOnReservedCode := by
  constructor
  · intro s f h
    obtain ⟨t, e⟩ | ⟨_, _, _, -, -, -, e⟩ := step_next_or_reserved s
    · exact nomatch e.symm.trans h
    · exact nomatch e.symm.trans h
  · intro s r h
    obtain ⟨t, e⟩ | ⟨c, rest, why, hp, hs, hd, e⟩ := step_next_or_reserved s
    · exact nomatch e.symm.trans h
    · exact ⟨c, rest, why, hp, hs, hd, (Host.Outcome.refused.inj (e.symm.trans h)).symm⟩

/-- A command that takes no operand, and a reserved code, decode as they do with any other `wdata`. -/
theorem decode_of_unused_wdata {c : Command} (unused : ∀ i, decode c = .ok i → i.takesWdata = false) (w : Word) :
    decode { c with wdata := w } = decode c := by
  rw [decode_replace_wdata]
  cases hd : decode c with
  | ok i => exact congrArg Except.ok (replaceOperand_of_takesNone (unused i hd) w)
  | error why => rfl

theorem step_of_accepted {s : State} {c : Command} {rest : List Input} (hs : Idle s)
    (hp : s.port = .command c :: rest) :
    step s = accept exec c { s with port := rest } := by
  simp [step, portStep, hp, busy, hs.1, hs.2]

/-- Of a command the port sees its code and what it decodes to. -/
theorem accept_congr {run : Instr → State → Host.Outcome State Fault Refusal} {c d : Command}
    (hd : decode d = decode c) (cmd : d.cmd = c.cmd) (s : State) : accept run d s = accept run c s := by
  rw [accept, accept, hd, cmd]

/-- Settles O9 (R37): the two commands have one code and decode alike, so the port does the same with either. -/
theorem unusedWdataIgnored : Obligations.UnusedWdataIgnored := by
  intro s c rest w hp unused hs
  have accepted : step { s with port := .command { c with wdata := w } :: rest } =
      accept exec { c with wdata := w } { s with port := rest } := step_of_accepted hs rfl
  rw [accepted, step_of_accepted hs hp]
  exact accept_congr (decode_of_unused_wdata unused w) rfl _

end Sys2Proof.Machine
end

section
/-! Every command completes and is answered as the table's `rdata` column says (R37, R40, R46, R73). -/

namespace Sys2Proof.Machine

/-- Settles O23 (R37, R46, R73): what the nine meanings have in common, with what the response holds. -/
theorem everyCommandCompletes : Obligations.EveryCommandCompletes := by
  intro i s
  obtain ⟨t, r, he, responses, value⟩ := exec_response i s
  obtain ⟨t', _, he', -, ci, port, resets⟩ := exec_answers i s
  obtain rfl : t = t' := Host.Outcome.next.inj (he.symm.trans he')
  exact ⟨t, r, he, ci, responses, value, port, resets⟩

theorem deliversRdata_iff (i : Instr) : i.deliversRdata = true ↔
    i = .next128 ∨ (∃ k, i = .rds128 k) ∨ i = .next256 ∨ (∃ k, i = .rds256 k) ∨ ∃ v, i = .toFloat v := by
  cases i <;> simp [Instr.deliversRdata]

/-- Settles O1 (R40): each of the seventeen codes is decoded by evaluation, `wdata` staying a variable; all others are
rejected; and the response is as the column `rdata` says. -/
theorem seventeenCodesDecode : Obligations.SeventeenCodesDecode := by
  refine ⟨fun _ => rfl, fun _ => rfl, fun _ => rfl, fun _ => rfl, fun _ => rfl, fun _ => rfl, fun _ => rfl,
    fun _ => rfl, fun _ => rfl, fun _ => rfl, fun _ => rfl, fun _ => rfl, fun _ => rfl, fun _ => rfl, fun _ => rfl,
    fun _ => rfl, fun _ => rfl, fun _ => decode_of_not_mem, ?answers⟩
  intro i s
  obtain ⟨t, r, he, responses, value⟩ := exec_response i s
  exact ⟨t, r, he, responses, by rw [value, deliversRdata_iff]⟩

end Sys2Proof.Machine
end

section
/-! Assembler lines issued to a quiet CORE, one after another (R44, R45, R46). -/

namespace Sys2Proof.Machine

open Sys2Proof.Safety

theorem exec_keeps_quiet {i : Instr} {s t : State} (h : exec i s = .next t) (quiet : Quiet s) : Quiet t :=
  ⟨exec_keeps_idle h quiet.1, (exec_port h).trans quiet.2⟩

/-- A line that stands for an instruction is run as that instruction: its command is all that waits. -/
theorem runLine_of_lineInstr {last : Option Word} {l : AsmLine} {i : Instr} {s : State} (quiet : Quiet s)
    (hi : lineInstr last l = some i) : runLine last l s = exec i s := by
  obtain ⟨idle, port⟩ := quiet
  have waits : (present s (.command (encode i))).port = [.command (encode i)] := by simp [port]
  have taken : { present s (.command (encode i)) with port := [] } = s := by simp [present, ← port]
  have runs : step (present s (.command (encode i))) = exec i { present s (.command (encode i)) with port := [] } :=
    portStep_of_command idle waits (decode_encode i)
  rw [runLine, hi]
  exact runs.trans (congrArg (exec i) taken)

theorem runLines_of_lineInstr {last : Option Word} {l : AsmLine} {i : Instr} {s t : State} (quiet : Quiet s)
    (hi : lineInstr last l = some i) (he : exec i s = .next t) (rest : List AsmLine) :
    runLines last (l :: rest) s = runLines (updateLast last t) rest t := by
  rw [runLines, runLine_of_lineInstr quiet hi, he]

/-- `%last` after a response `r` is its value, or what it was if `r` holds none. -/
theorem updateLast_of_responses {t : State} {rs : List (Option Word)} {r : Option Word} (h : t.responses = rs ++ [r])
    (last : Option Word) : updateLast last t = r.or last := by
  rw [updateLast, h, List.getLast?_concat]
  cases r <;> rfl

@[simp] theorem operandValue_last (last : Option Word) : operandValue last .last = last := rfl

@[simp] theorem isSome_operandValue_lit (last : Option Word) (n : Nat) :
    (operandValue last (.lit n)).isSome = decide (n < 2 ^ 64) := by
  by_cases fits : n < 2 ^ 64
  · rw [operandValue, if_pos fits, decide_eq_true fits, Option.isSome_some]
  · rw [operandValue, if_neg fits, decide_eq_false fits, Option.isSome_none]

/-- A literal that is a word is presented as that word. -/
@[simp] theorem operandValue_lit_toNat (last : Option Word) (v : Word) : operandValue last (.lit v.toNat) = some v := by
  rw [operandValue, if_pos v.isLt, BitVec.ofNat_toNat, BitVec.setWidth_eq]

/-- A line stands for an instruction exactly when it is well-formed and has its `%last`, if it uses it (R44). -/
theorem isSome_lineInstr (last : Option Word) (l : AsmLine) :
    (lineInstr last l).isSome = (l.wf && (!l.usesLast || last.isSome)) := by
  cases l with
  | next128 | jump128 | next256 | jump256 => rfl
  | rds128 i =>
    by_cases range : i < 2 <;> simp [lineInstr, AsmLine.wf, AsmLine.usesLast, range]
  | rds256 i =>
    by_cases range : i < 4 <;> simp [lineInstr, AsmLine.wf, AsmLine.usesLast, range]
  | lds128 i v =>
    by_cases range : i < 2
    · cases v <;> simp [lineInstr, AsmLine.wf, AsmLine.usesLast, Operand.wf, range]
    · simp [lineInstr, AsmLine.wf, range]
  | lds256 i v =>
    by_cases range : i < 4
    · cases v <;> simp [lineInstr, AsmLine.wf, AsmLine.usesLast, Operand.wf, range]
    · simp [lineInstr, AsmLine.wf, range]
  | toFloat v =>
    cases v <;> simp [lineInstr, AsmLine.wf, AsmLine.usesLast, Operand.wf]

theorem deliversRdata_of_lineInstr {last : Option Word} {l : AsmLine} {i : Instr} (hi : lineInstr last l = some i) :
    i.deliversRdata = l.deliversRdata := by
  cases l with
  | next128 | jump128 | next256 | jump256 =>
    obtain rfl := Option.some.inj hi
    rfl
  | rds128 k | rds256 k =>
    obtain ⟨_, same⟩ := Option.dite_none_right_eq_some.1 hi
    obtain rfl := Option.some.inj same
    rfl
  | lds128 k v | lds256 k v =>
    obtain ⟨_, operand⟩ := Option.dite_none_right_eq_some.1 hi
    obtain ⟨_, -, rfl⟩ := Option.map_eq_some_iff.1 operand
    rfl
  | toFloat v =>
    obtain ⟨_, -, rfl⟩ := Option.map_eq_some_iff.1 hi
    rfl

/-- A well-formed line completes, and `%last` has a meaning after it if it had one or the line delivers a response. -/
theorem runLine_completes {last : Option Word} {l : AsmLine} {s : State} (quiet : Quiet s)
    (wf : (l.wf && (!l.usesLast || last.isSome)) = true) :
    ∃ t, runLine last l s = .next t ∧ Quiet t ∧ t.ci = s.ci + 1 ∧
      (updateLast last t).isSome = (last.isSome || l.deliversRdata) := by
  obtain ⟨i, hi⟩ := Option.isSome_iff_exists.1 ((isSome_lineInstr last l).trans wf)
  obtain ⟨t, r, he, ci, responses, value, -, -⟩ := everyCommandCompletes i s
  refine ⟨t, (runLine_of_lineInstr quiet hi).trans he, exec_keeps_quiet he quiet, ci, ?_⟩
  rw [updateLast_of_responses responses, Option.isSome_or, value, deliversRdata_of_lineInstr hi, Bool.or_comm]

theorem runLine_of_illFormed {last : Option Word} {l : AsmLine} (bad : (l.wf && (!l.usesLast || last.isSome)) = false)
    (s : State) : runLine last l s = .refused .illFormedLine := by
  have noInstr : lineInstr last l = none := Option.not_isSome_iff_eq_none.1 (by simp [isSome_lineInstr, bad])
  rw [runLine, noInstr]

/-- The rest of a program runs to its end if it is well-formed from here, `%last` having a meaning or not. -/
theorem runLines_completes {last : Option Word} {p : List AsmLine} {s : State} (quiet : Quiet s)
    (wf : AsmLine.programWfFrom last.isSome p = true) :
    ∃ t, runLines last p s = .next t ∧ Quiet t ∧ t.ci = s.ci + p.length := by
  induction p generalizing last s with
  | nil => exact ⟨s, rfl, quiet, rfl⟩
  | cons l p ih =>
    obtain ⟨line, rest⟩ := Bool.and_eq_true_iff.1 wf
    obtain ⟨t, ht, quiet', ci, delivered⟩ := runLine_completes quiet line
    obtain ⟨u, hu, quiet'', ci'⟩ := ih quiet' (delivered ▸ rest)
    refine ⟨u, ?_, quiet'', by rw [ci', ci, List.length_cons, Nat.add_assoc, Nat.add_comm 1]⟩
    rw [runLines, ht]
    exact hu

/-- Otherwise the first line that breaks it is reached and refused. -/
theorem runLines_refuses {last : Option Word} {p : List AsmLine} {s : State} (quiet : Quiet s)
    (bad : AsmLine.programWfFrom last.isSome p = false) : runLines last p s = .refused .illFormedLine := by
  induction p generalizing last s with
  | nil => exact nomatch bad
  | cons l p ih =>
    cases line : l.wf && (!l.usesLast || last.isSome) with
    | false => rw [runLines, runLine_of_illFormed line]
    | true =>
      obtain ⟨t, ht, quiet', -, delivered⟩ := runLine_completes quiet line
      rw [AsmLine.programWfFrom, line, Bool.true_and, ← delivered] at bad
      rw [runLines, ht]
      exact ih quiet' bad

/-- Settles O56 (R44, R46), by induction on the lines: `%last` has a meaning exactly where the check says that a
response has been delivered. -/
theorem wellFormedLinesRun : Obligations.WellFormedLinesRun := by
  intro s p quiet
  exact ⟨runLines_completes (last := none) quiet, runLines_refuses (last := none) quiet⟩

end Sys2Proof.Machine
end

section
/-! The pseudo-instructions (R45): a seed and its lanes (R83), and an output with its conversion. -/

namespace Sys2Proof.Machine

open Sys2Proof.Safety

/-- A line repeated `n` times, each time the same instruction, does `n` times what the instruction does to what is
observed of the state. -/
theorem runLines_replicate {α : Type} {l : AsmLine} {i : Instr} {reg : State → α} {f : α → α}
    (hi : ∀ last, lineInstr last l = some i) (effect : ∀ s t, exec i s = .next t → reg t = f (reg s)) (n : Nat)
    (last : Option Word) {s : State} (quiet : Quiet s) :
    ∃ t, runLines last (List.replicate n l) s = .next t ∧ Quiet t ∧ reg t = f^[n] (reg s) := by
  induction n generalizing last s with
  | zero => exact ⟨s, rfl, quiet, rfl⟩
  | succ n ih =>
    obtain ⟨t, -, he, -⟩ := exec_answers i s
    obtain ⟨u, hu, quiet', after⟩ := ih (updateLast last t) (exec_keeps_quiet he quiet)
    refine ⟨u, ?_, quiet', ?_⟩
    · rw [List.replicate_succ, runLines_of_lineInstr quiet (hi last) he]
      exact hu
    · rw [after, effect s t he, Function.iterate_succ_apply]

/-- LANE128 (R45). -/
theorem runLines_replicate_jump128 (n : Nat) (last : Option Word) {s : State} (quiet : Quiet s) :
    ∃ t, runLines last (List.replicate n .jump128) s = .next t ∧ Quiet t ∧
      t.s128 = jumpFn128^[n] s.s128 ∧ t.s256 = s.s256 := by
  have effect : ∀ s t, exec .jump128 s = .next t → (t.s128, t.s256) = Prod.map jumpFn128 id (s.s128, s.s256) := by
    intro s t he
    rw [← Host.Outcome.next.inj he, complete_s128, complete_s256, Prod.map_apply, id]
  obtain ⟨t, ht, quiet', words⟩ := runLines_replicate (l := .jump128) (reg := fun s => (s.s128, s.s256))
    (fun _ => rfl) effect n last quiet
  rw [Prod.map_iterate, Function.iterate_id] at words
  exact ⟨t, ht, quiet', congrArg Prod.fst words, congrArg Prod.snd words⟩

/-- LANE256 (R45). -/
theorem runLines_replicate_jump256 (n : Nat) (last : Option Word) {s : State} (quiet : Quiet s) :
    ∃ t, runLines last (List.replicate n .jump256) s = .next t ∧ Quiet t ∧
      t.s256 = jumpFn256^[n] s.s256 ∧ t.s128 = s.s128 := by
  have effect : ∀ s t, exec .jump256 s = .next t → (t.s256, t.s128) = Prod.map jumpFn256 id (s.s256, s.s128) := by
    intro s t he
    rw [← Host.Outcome.next.inj he, complete_s128, complete_s256, Prod.map_apply, id]
  obtain ⟨t, ht, quiet', words⟩ := runLines_replicate (l := .jump256) (reg := fun s => (s.s256, s.s128))
    (fun _ => rfl) effect n last quiet
  rw [Prod.map_iterate, Function.iterate_id] at words
  exact ⟨t, ht, quiet', congrArg Prod.fst words, congrArg Prod.snd words⟩

/-- A load of a literal, the first of several lines. -/
theorem runLines_lds128 (last : Option Word) (i : Fin 2) (v : Word) (rest : List AsmLine) {s : State}
    (quiet : Quiet s) :
    runLines last (.lds128 i (.lit v.toNat) :: rest) s = runLines last rest (complete none (writeS128 s i v)) := by
  have hi : lineInstr last (.lds128 i (.lit v.toNat)) = some (.lds128 i v) := by
    rw [lineInstr, dif_pos i.isLt, operandValue_lit_toNat]
    rfl
  rw [runLines_of_lineInstr quiet hi rfl, updateLast_of_responses (complete_responses _ _), Option.none_or]

/-- The same for G256. -/
theorem runLines_lds256 (last : Option Word) (i : Fin 4) (v : Word) (rest : List AsmLine) {s : State}
    (quiet : Quiet s) :
    runLines last (.lds256 i (.lit v.toNat) :: rest) s = runLines last rest (complete none (writeS256 s i v)) := by
  have hi : lineInstr last (.lds256 i (.lit v.toNat)) = some (.lds256 i v) := by
    rw [lineInstr, dif_pos i.isLt, operandValue_lit_toNat]
    rfl
  rw [runLines_of_lineInstr quiet hi rfl, updateLast_of_responses (complete_responses _ _), Option.none_or]

theorem runSource_pseudo (ps : List Pseudo) (s : State) :
    runSource (ps.map .pseudo) s = runLines none (ps.flatMap Pseudo.expand) s := by
  rw [runSource, runProgram, List.flatMap_map]
  rfl

/-- SEED128 (R45): two loads, after which the state words are the seed, whatever they were before. -/
theorem runLines_seed128 (last : Option Word) (v0 v1 : Word) {s : State} (quiet : Quiet s) :
    ∃ t, Quiet t ∧ t.s128 = { w0 := v0, w1 := v1 } ∧ t.s256 = s.s256 ∧
      ∀ rest, runLines last (Pseudo.expand (.seed128 (.lit v0.toNat) (.lit v1.toNat)) ++ rest) s =
        runLines last rest t :=
  ⟨complete none (writeS128 (complete none (writeS128 s 0 v0)) 1 v1), quiet, rfl, rfl, fun rest =>
    (runLines_lds128 last 0 v0 _ quiet).trans (runLines_lds128 last 1 v1 rest quiet)⟩

/-- SEED256 (R45). -/
theorem runLines_seed256 (last : Option Word) (v0 v1 v2 v3 : Word) {s : State} (quiet : Quiet s) :
    ∃ t, Quiet t ∧ t.s256 = { w0 := v0, w1 := v1, w2 := v2, w3 := v3 } ∧ t.s128 = s.s128 ∧
      ∀ rest, runLines last (Pseudo.expand
          (.seed256 (.lit v0.toNat) (.lit v1.toNat) (.lit v2.toNat) (.lit v3.toNat)) ++ rest) s =
        runLines last rest t := by
  refine ⟨complete none (writeS256 (complete none (writeS256 (complete none (writeS256
    (complete none (writeS256 s 0 v0)) 1 v1)) 2 v2)) 3 v3), quiet, rfl, rfl, fun rest => ?_⟩
  calc runLines last _ s
      = runLines last _ _ := runLines_lds256 last 0 v0 _ quiet
    _ = runLines last _ _ := runLines_lds256 last 1 v1 _ quiet
    _ = runLines last _ _ := runLines_lds256 last 2 v2 _ quiet
    _ = runLines last rest _ := runLines_lds256 last 3 v3 rest quiet

/-- Settles O57 (R45, R83): the loads leave the seed, whatever was there before, and the repeated JUMP jumps it `n`
times. -/
theorem seedThenLaneLeavesLaneState : Obligations.SeedThenLaneLeavesLaneState := by
  constructor
  · intro s v0 v1 n quiet
    obtain ⟨t, quiet', seed, others, loads⟩ := runLines_seed128 none v0 v1 quiet
    obtain ⟨u, hu, quiet'', words, others'⟩ := runLines_replicate_jump128 n none quiet'
    refine ⟨u, ?_, quiet'', by rw [words, seed, lane128], others'.trans others⟩
    calc runSource _ s
        = runLines none _ s := runSource_pseudo [_, .lane128 n] s
      _ = runLines none (List.replicate n .jump128 ++ []) t := loads _
      _ = .next u := by rw [List.append_nil, hu]
  · intro s v0 v1 v2 v3 n quiet
    obtain ⟨t, quiet', seed, others, loads⟩ := runLines_seed256 none v0 v1 v2 v3 quiet
    obtain ⟨u, hu, quiet'', words, others'⟩ := runLines_replicate_jump256 n none quiet'
    refine ⟨u, ?_, quiet'', by rw [words, seed, lane256], others'.trans others⟩
    calc runSource _ s
        = runLines none _ s := runSource_pseudo [_, .lane256 n] s
      _ = runLines none (List.replicate n .jump256 ++ []) t := loads _
      _ = .next u := by rw [List.append_nil, hu]

/-- A line that delivers `v` and then TOFLOAT of `%last`: the second response is the conversion of the first, and the
generators are as the first line left them. -/
theorem runLines_toFloat_last {last : Option Word} {l : AsmLine} {i : Instr} {s t : State} {v : Word} (quiet : Quiet s)
    (hi : lineInstr last l = some i) (he : exec i s = .next t) (responses : t.responses = s.responses ++ [some v]) :
    ∃ u, runLines last [l, .toFloat .last] s = .next u ∧ u.s128 = t.s128 ∧ u.s256 = t.s256 ∧
      u.responses = s.responses ++ [some v, some (f64Bits (topBits v))] := by
  refine ⟨complete (some (f64Bits (topBits v))) t, ?_, rfl, rfl, by simp [responses]⟩
  rw [runLines_of_lineInstr quiet hi he, updateLast_of_responses responses, Option.some_or]
  exact runLines_of_lineInstr (exec_keeps_quiet he quiet) rfl rfl []

/-- Settles O58 (R44, R45): NEXT answers from the old words, and `%last` is what it answered. -/
theorem nextThenToFloatOfLast : Obligations.NextThenToFloatOfLast := by
  constructor
  · intro s quiet
    obtain ⟨u, hu, words, -, responses⟩ :=
      runLines_toFloat_last (last := none) (l := .next128) quiet rfl rfl (complete_responses _ _)
    exact ⟨u, (runSource_pseudo [.nextF128] s).trans hu, words, responses⟩
  · intro s quiet
    obtain ⟨u, hu, -, words, responses⟩ :=
      runLines_toFloat_last (last := none) (l := .next256) quiet rfl rfl (complete_responses _ _)
    exact ⟨u, (runSource_pseudo [.nextF256] s).trans hu, words, responses⟩

end Sys2Proof.Machine
end

section
/-! G128's jump as 2^64 steps (R56). -/

namespace Sys2Proof.Machine

open Sys2Proof.Gf2

/-- Settles O34 (R56): the jump is the evaluation of its polynomial, that polynomial is `x` squared 64 times modulo the
polynomial which the step satisfies, and so it evaluates to the step applied 2^64 times. -/
theorem jump128Distance : Obligations.Jump128Distance := by
  intro s
  calc jumpFn128 s
      = linear128.eval 128 jumpPoly128 s := jumpFn128_eval s
    _ = linear128.eval 128 (squared stepPoly128 128 64) s := by rw [jumpPoly128_squared]
    _ = step128^[2 ^ 64] s := eval_squared linear128 (by decide) (by decide) (by decide) stepPoly128_zero 64 s

end Sys2Proof.Machine
end

section
/-! The jump engines, position by position, and the run of G128's at the port (R51, R61, R92). -/

namespace Sys2Proof.Machine

open Sys2Proof.Safety

/-- `s` with a jump of G128 in progress at bit position `k` (R51). -/
def atPosition128 (s : State) (k : Nat) : State :=
  { s with busy128 := true, jc128 := BitVec.ofNat 7 k
           acc128 := jumpLoop128 k 0 zero128 s.s128, s128 := step128^[k] s.s128 }

/-- `s` with a jump of G256 in progress at bit position `k` (R61). -/
def atPosition256 (s : State) (k : Nat) : State :=
  { s with busy256 := true, jc256 := BitVec.ofNat 8 k
           acc256 := jumpLoop256 k 0 zero256 s.s256, s256 := step256^[k] s.s256 }

theorem start128_eq_atPosition (s : State) : start128 s = atPosition128 s 0 := rfl

theorem start256_eq_atPosition (s : State) : start256 s = atPosition256 s 0 := rfl

/-- What an atomic JUMP128 leaves (R50). -/
def afterJump128 (s : State) : State :=
  complete none { s with s128 := jumpFn128 s.s128, acc128 := jumpFn128 s.s128, jc128 := 127#7, busy128 := false }

/-- What an atomic JUMP256 leaves (R60). -/
def afterJump256 (s : State) : State :=
  complete none { s with s256 := jumpFn256 s.s256, acc256 := jumpFn256 s.s256, jc256 := 255#8, busy256 := false }

theorem exec_jump128 (s : State) : exec .jump128 s = .next (afterJump128 s) := rfl

theorem exec_jump256 (s : State) : exec .jump256 s = .next (afterJump256 s) := rfl

/-- The jump is the accumulation at the last position of what the positions before it have left. -/
theorem jumpFn128_eq_last (s : Words2) :
    jumpFn128 s = accumulate128 127 (jumpLoop128 127 0 zero128 s) (step128^[127] s) :=
  jumpLoop128_succ 127 0 zero128 s

theorem jumpFn256_eq_last (s : Words4) :
    jumpFn256 s = accumulate256 255 (jumpLoop256 255 0 zero256 s) (step256^[255] s) :=
  jumpLoop256_succ 255 0 zero256 s

/-- A tick of G128's engine before the last position. -/
theorem tick_atPosition128 (s : State) {k : Nat} (hk : k < 127) :
    tick (atPosition128 s k) = atPosition128 s (k + 1) := by
  have position : (BitVec.ofNat 7 k).toNat = k := by simp; omega
  have goesOn : k ≠ 127 := by omega
  simp [tick, micro128, atPosition128, position, goesOn, jumpLoop128_succ, Function.iterate_succ_apply']

/-- The last tick of G128's engine leaves what the atomic command leaves. -/
theorem tick_atPosition128_last (s : State) : tick (atPosition128 s 127) = afterJump128 s := by
  simp [tick, micro128, atPosition128, afterJump128, jumpFn128_eq_last, -Function.iterate_succ]

theorem tick_atPosition256 {s : State} (rests : s.busy128 = false) {k : Nat} (hk : k < 255) :
    tick (atPosition256 s k) = atPosition256 s (k + 1) := by
  have position : (BitVec.ofNat 8 k).toNat = k := by simp; omega
  have goesOn : k ≠ 255 := by omega
  simp [tick, micro256, atPosition256, rests, position, goesOn, jumpLoop256_succ, Function.iterate_succ_apply']

theorem tick_atPosition256_last {s : State} (rests : s.busy128 = false) :
    tick (atPosition256 s 255) = afterJump256 s := by
  simp [tick, micro256, atPosition256, afterJump256, rests, jumpFn256_eq_last, -Function.iterate_succ]

theorem runWith_one (one : State → Host.Outcome State Fault Refusal) (s : State) : runWith one 1 s = one s := by
  rw [runWith]
  cases one s <;> rfl

/-- Nothing at the head of the port can be taken during a jump: a command waits, or nothing is presented (R92). -/
def Waits (p : List Input) : Prop := p = [] ∨ ∃ c rest, p = .command c :: rest

theorem waits_of_commands {p : List Input} (commands : ∀ x ∈ p, ∃ c, x = .command c) : Waits p := by
  cases p with
  | nil => exact .inl rfl
  | cons x rest =>
    obtain ⟨c, rfl⟩ := commands x (by simp)
    exact .inr ⟨c, rest, rfl⟩

theorem microStep_of_waits {s : State} (waits : Waits s.port) (jumping : busy s = true) :
    microStep s = .next (tick s) := by
  obtain hp | ⟨c, rest, hp⟩ := waits
  · simp [microStep, portStep, hp]
  · simp [microStep, portStep, hp, jumping]

/-- `k` ticks after the start the engine of G128 stands at position `k`, whatever command waits behind the jump. -/
theorem runWith_atPosition128 {s : State} {c : Command} {rest : List Input} (hs : Idle s)
    (hp : s.port = .command c :: rest) (hd : decode c = .ok .jump128) (waits : Waits rest) {k : Nat} (hk : k < 128) :
    runWith microStep (k + 1) s = .next (atPosition128 { s with port := rest } k) := by
  induction k with
  | zero => exact (runWith_one microStep s).trans (portStep_of_command hs hp hd)
  | succ k ih =>
    have onward : tick (atPosition128 { s with port := rest } k) = atPosition128 { s with port := rest } (k + 1) :=
      tick_atPosition128 _ (by omega)
    rw [runWith_add (ih (by omega)), runWith_one, microStep_of_waits waits rfl, onward]

/-- Settles O41 (R50, R51): the start stands at position 0, each micro-step before the last moves to the next position,
and the last leaves what the atomic command leaves. -/
theorem jumpEngine128EqualsCommand : Obligations.JumpEngine128EqualsCommand := by
  intro s w rest hs hp commands
  have waits : Waits rest := waits_of_commands commands
  have position {k : Nat} (hk : k < 128) :
      runWith microStep (k + 1) s = .next (atPosition128 { s with port := rest } k) :=
    runWith_atPosition128 hs hp rfl waits hk
  refine ⟨fun k hk => position hk, ?_⟩
  have last : runWith microStep 128 s = .next (atPosition128 { s with port := rest } 127) := position (by decide)
  calc runWith microStep 129 s
      = runWith microStep 1 (atPosition128 { s with port := rest } 127) := runWith_add (n := 1) last
    _ = .next (tick (atPosition128 { s with port := rest } 127)) := by rw [runWith_one, microStep_of_waits waits rfl]
    _ = exec .jump128 { s with port := rest } := by rw [tick_atPosition128_last, exec_jump128]

end Sys2Proof.Machine
end

section
/-! The machine of micro-steps behind the atomic one (R92): during a jump it is a number of ticks away from the state that
the atomic command has left, and ticks are all that separates the two. -/

namespace Sys2Proof.Machine

open Sys2Proof.Safety

/-- `u` is `n` ticks of a jump in progress away from the idle state `t`. -/
inductive CatchesUp : Nat → State → State → Prop
  | done {t : State} (idle : Idle t) : CatchesUp 0 t t
  | later {n : Nat} {u t : State} (jumping : busy u = true) (next : CatchesUp n (tick u) t) : CatchesUp (n + 1) u t

/-- A tick does not look at the port. -/
theorem tick_withPort (s : State) (p : List Input) : tick { s with port := p } = { tick s with port := p } := by
  simp only [tick, micro128, micro256]
  split_ifs <;> rfl

namespace CatchesUp

theorem idle {n : Nat} {u t : State} (h : CatchesUp n u t) : Idle t := by
  induction h with
  | done idle => exact idle
  | later _ _ ih => exact ih

theorem port {n : Nat} {u t : State} (h : CatchesUp n u t) : u.port = t.port := by
  induction h with
  | done => rfl
  | later _ _ ih => exact (tick_port _).1.symm.trans ih

theorem resets {n : Nat} {u t : State} (h : CatchesUp n u t) : u.resets = t.resets := by
  induction h with
  | done => rfl
  | later _ _ ih => exact (tick_port _).2.symm.trans ih

theorem withPort {n : Nat} {u t : State} (h : CatchesUp n u t) (p : List Input) :
    CatchesUp n { u with port := p } { t with port := p } := by
  induction h with
  | done idle => exact .done idle
  | later jumping _ ih => exact .later jumping (tick_withPort _ p ▸ ih)

/-- A tick that the atomic machine spends idle brings the other nearer, or finds it there. -/
theorem after_tick {n : Nat} {u t : State} (h : CatchesUp n u t) : ∃ m, CatchesUp m (tick u) t := by
  cases h with
  | done idle => exact ⟨0, (tick_of_idle idle).symm ▸ .done idle⟩
  | later _ next => exact ⟨_, next⟩

/-- A sequence of states, each a tick after the one before it and the last a tick before an idle state. -/
theorem of_positions {pos : Nat → State} {n : Nat} {t : State} (jumping : ∀ k, busy (pos k) = true)
    (next : ∀ k, k < n → tick (pos k) = pos (k + 1)) (last : tick (pos n) = t) (idle : Idle t) :
    CatchesUp (n + 1) (pos 0) t := by
  induction n generalizing pos with
  | zero =>
    refine .later (jumping 0) ?_
    rw [last]
    exact .done idle
  | succ n ih =>
    refine .later (jumping 0) ?_
    rw [next 0 (by omega)]
    exact ih (pos := fun k => pos (k + 1)) (fun k => jumping _) (fun k hk => next _ (by omega)) last

/-- The started engine of G128 is 128 ticks behind the atomic command. -/
theorem jump128 {s : State} (hs : Idle s) : CatchesUp 128 (start128 s) (afterJump128 s) := by
  rw [start128_eq_atPosition]
  have idle : Idle (afterJump128 s) := exec_keeps_idle (exec_jump128 s) hs
  exact of_positions (fun _ => rfl) (fun _ => tick_atPosition128 s) (tick_atPosition128_last s) idle

/-- The started engine of G256 is 256 ticks behind the atomic command. -/
theorem jump256 {s : State} (hs : Idle s) : CatchesUp 256 (start256 s) (afterJump256 s) := by
  rw [start256_eq_atPosition]
  have idle : Idle (afterJump256 s) := exec_keeps_idle (exec_jump256 s) hs
  have jumping (k : Nat) : busy (atPosition256 s k) = true := by simp [busy, atPosition256]
  exact of_positions jumping (fun _ => tick_atPosition256 hs.1) (tick_atPosition256_last hs.1) idle

end CatchesUp

/-- A command accepted by an idle CORE is completed by the atomic machine at once, and by the other after some ticks. -/
theorem launch_catchesUp (i : Instr) {s : State} (hs : Idle s) :
    ∃ n u t, launch i s = .next u ∧ exec i s = .next t ∧ CatchesUp n u t := by
  by_cases h128 : i = .jump128
  · subst h128
    exact ⟨128, _, _, rfl, exec_jump128 s, .jump128 hs⟩
  · by_cases h256 : i = .jump256
    · subst h256
      exact ⟨256, _, _, rfl, exec_jump256 s, .jump256 hs⟩
    · obtain ⟨t, -, he, -⟩ := exec_answers i s
      exact ⟨0, t, t, (launch_eq_exec h128 h256 s).trans he, he, .done (exec_keeps_idle he hs)⟩

/-- While nothing can be taken the machine of micro-steps ticks until it has caught up. -/
theorem CatchesUp.run {n : Nat} {u t : State} (h : CatchesUp n u t) (waits : Waits u.port) :
    runWith microStep n u = .next t := by
  induction h with
  | done => rfl
  | @later n u t jumping _ ih =>
    rw [runWith, microStep_of_waits waits jumping]
    exact ih ((tick_port u).1 ▸ waits)

/-- The outcomes of the two machines: the first is some ticks behind the second, or both stop with the same refusal. -/
def Behind (x y : Host.Outcome State Fault Refusal) : Prop :=
  (∃ n u t, x = .next u ∧ y = .next t ∧ CatchesUp n u t) ∨ (∃ r, x = .refused r ∧ y = .refused r)

/-- From the same idle state the machine of micro-steps falls behind when it accepts a JUMP, and not otherwise. -/
theorem microStep_behind {s : State} (hs : Idle s) : Behind (microStep s) (step s) := by
  cases hp : s.port with
  | nil =>
    have micro : microStep s = .next s := by simp [microStep, portStep, hp, tick_of_idle hs]
    exact .inl ⟨0, s, s, micro, step_of_nothing hs hp, .done hs⟩
  | cons x rest =>
    cases x with
    | idle =>
      have still : tick { s with port := rest } = { s with port := rest } := tick_of_idle hs
      have micro : microStep s = .next { s with port := rest } := by simp [microStep, portStep, hp, still]
      exact .inl ⟨0, _, _, micro, step_of_idleSlot hs hp, .done hs⟩
    | reset =>
      have micro : microStep s = .next (resetEvent { s with port := rest }) := by simp [microStep, portStep, hp]
      exact .inl ⟨0, _, _, micro, step_of_reset hp, .done ⟨rfl, rfl⟩⟩
    | command c =>
      cases hd : decode c with
      | ok i =>
        obtain ⟨n, u, t, hu, ht, behind⟩ := launch_catchesUp i (s := { s with port := rest }) hs
        exact .inl ⟨n, u, t, (portStep_of_command hs hp hd).trans hu, (portStep_of_command hs hp hd).trans ht, behind⟩
      | error why =>
        have micro : microStep s = .refused (.reservedCode why c.cmd) := by
          simp [microStep, portStep, hp, busy, hs.1, hs.2, accept, hd]
        exact .inr ⟨_, micro, step_of_reserved hs hp hd⟩

/-- A step of an idle CORE takes what stands at the head of its port. -/
theorem step_takes_input {s t : State} {x : Input} {rest : List Input} (hs : Idle s) (hp : s.port = x :: rest)
    (h : step s = .next t) : t.port = rest := by
  cases x with
  | idle => rw [← Host.Outcome.next.inj ((step_of_idleSlot hs hp).symm.trans h)]
  | reset => rw [← Host.Outcome.next.inj ((step_of_reset hp).symm.trans h), resetEvent_port]
  | command c =>
    cases hd : decode c with
    | ok i => exact exec_port ((portStep_of_command hs hp hd).symm.trans h)
    | error why => exact nomatch (step_of_reserved hs hp hd).symm.trans h

theorem step_port_suffix {s t : State} (hs : Idle s) (h : step s = .next t) : t.port <:+ s.port := by
  cases hp : s.port with
  | nil =>
    obtain rfl := Host.Outcome.next.inj ((step_of_nothing hs hp).symm.trans h)
    exact hp ▸ List.suffix_rfl
  | cons x rest => exact step_takes_input hs hp h ▸ List.suffix_cons x _

/-- A refusal is the end of a run, however many steps are asked of it. -/
theorem runWith_of_refused {one : State → Host.Outcome State Fault Refusal} {m : Nat} {s : State} {r : Refusal}
    (h : runWith one m s = .refused r) (n : Nat) : runWith one (m + n) s = .refused r := by
  induction m generalizing s with
  | zero => exact nomatch h
  | succ m ih =>
    rw [Nat.add_right_comm, runWith]
    rw [runWith] at h
    cases hs : one s with
    | next t => rw [hs] at h; exact ih h
    | fault f => exact nomatch f
    | refused q => rw [hs] at h; exact h

/-- A step of the atomic machine at a port of commands is a step and some ticks of the other machine. -/
theorem microStep_run_eq_step {s : State} (hs : Idle s) (commands : ∀ x ∈ s.port, ∃ c, x = .command c) :
    ∃ n, runWith microStep (1 + n) s = step s := by
  obtain ⟨n, u, t, hu, ht, behind⟩ | ⟨r, hr, hr'⟩ := microStep_behind hs
  · have left : ∀ x ∈ u.port, ∃ c, x = .command c := by
      rw [behind.port]
      exact fun x hx => commands x ((step_port_suffix hs ht).mem hx)
    refine ⟨n, ?_⟩
    rw [runWith_add ((runWith_one microStep s).trans hu), behind.run (waits_of_commands left), ht]
  · exact ⟨0, by rw [runWith_one, hr, hr']⟩

/-- Settles O43 (R50, R51, R60, R61, R92), by induction on the number of atomic steps: after each of them the machine of
micro-steps catches up, since the commands that wait are not taken during a jump. -/
theorem microStepMachineRefinesAtomic : Obligations.MicroStepMachineRefinesAtomic := by
  intro s n hs commands
  induction n generalizing s with
  | zero => exact ⟨0, le_rfl, rfl⟩
  | succ n ih =>
    obtain ⟨k, hk⟩ := microStep_run_eq_step hs commands
    rw [runWith]
    cases ht : step s with
    | next t =>
      have idle : Idle t := (stepKeepsRunInvariant s t ht).2 hs
      obtain ⟨m, hm, run⟩ := ih t idle fun x hx => commands x ((step_port_suffix hs ht).mem hx)
      exact ⟨1 + k + m, by omega, (runWith_add (hk.trans ht)).trans run⟩
    | fault f => exact nomatch f
    | refused r => exact ⟨1 + k + n, by omega, runWith_of_refused (hk.trans ht) n⟩

/-- A step of the atomic machine at a port that is not empty is some steps of the other machine, which may be behind before
and after: an idle slot passes while it ticks, a reset abandons the jump, a command waits for its end. -/
theorem CatchesUp.run_behind {n : Nat} {u t : State} {x : Input} {rest : List Input} (h : CatchesUp n u t)
    (hp : t.port = x :: rest) : ∃ m, Behind (runWith microStep m u) (step t) := by
  have hp' : u.port = x :: rest := h.port.trans hp
  cases x with
  | command c =>
    refine ⟨n + 1, ?_⟩
    rw [runWith_add (h.run (.inr ⟨c, rest, hp'⟩)), runWith_one]
    exact microStep_behind h.idle
  | reset =>
    have micro : microStep u = .next (resetEvent { u with port := rest }) := by simp [microStep, portStep, hp']
    have same : resetEvent { u with port := rest } = resetEvent { t with port := rest } := by
      simp [resetEvent, h.resets]
    rw [same] at micro
    exact ⟨1, .inl ⟨0, _, _, (runWith_one _ u).trans micro, step_of_reset hp, .done ⟨rfl, rfl⟩⟩⟩
  | idle =>
    have micro : microStep u = .next (tick { u with port := rest }) := by simp [microStep, portStep, hp']
    obtain ⟨k, next⟩ := (h.withPort rest).after_tick
    exact ⟨1, .inl ⟨k, _, _, (runWith_one _ u).trans micro, step_of_idleSlot h.idle hp, next⟩⟩

/-- The whole runs, the machine of micro-steps being behind at the start. -/
theorem CatchesUp.run_all {n : Nat} {u t : State} (h : CatchesUp n u t) :
    ∃ m, runWith microStep m u = runWith step t.port.length t := by
  induction hp : t.port generalizing n u t with
  | nil => exact ⟨n, h.run (.inl (h.port.trans hp))⟩
  | cons x rest ih =>
    obtain ⟨m, hm⟩ := h.run_behind hp
    rw [List.length_cons, runWith]
    obtain ⟨k, v, w, hv, hw, behind⟩ | ⟨r, hr, hr'⟩ := hm
    · obtain ⟨l, hl⟩ := ih behind (step_takes_input h.idle hp hw)
      rw [hw]
      exact ⟨m + l, (runWith_add hv).trans hl⟩
    · rw [hr']
      exact ⟨m, hr⟩

/-- Settles O60 (R50, R51, R60, R61, R86, R87, R92): an idle machine is not behind. -/
theorem microStepRunEndsAsAtomicRun : Obligations.MicroStepRunEndsAsAtomicRun := by
  intro s hs
  exact (CatchesUp.done hs).run_all

end Sys2Proof.Machine
end

section
/-! `STEP128` and `OUT128` bit by bit, the step's inverse, and `JUMPFN128` as a loop and as a sum of iterates (R47, R49, R54,
R55). -/

namespace Sys2Proof.Machine

open Sys2Proof.Gf2

/-- What bit `i` of a rotation holds, by the bit's new place. -/
theorem bit_rotl_at (x : Word) {k i : Nat} (hk0 : 0 < k) (hk : k < 64) (hi : i < 64) :
    bit (rotl x k) i = bit x ((i + (64 - k)) % 64) := by
  have place : ((i + (64 - k)) % 64 + k) % 64 = i := by omega
  rw [← bit_rotl x hk0 hk (Nat.mod_lt _ (by decide)), place]

/-- Rotating on to 64 places brings every bit back. -/
theorem rotl_rotl (x : Word) {k : Nat} (hk0 : 0 < k) (hk : k < 64) : rotl (rotl x k) (64 - k) = x := by
  refine BitVec.eq_of_getLsbD_eq fun i hi => ?_
  change bit (rotl (rotl x k) (64 - k)) i = bit x i
  have back : 64 - (64 - k) = k := by omega
  rw [bit_rotl_at _ (by omega) (by omega) hi, back, bit_rotl x hk0 hk hi]

/-- `STEP128` in the library's rotations (R47). -/
theorem step128_eq (s : Words2) : step128 s =
    { w0 := s.w0.rotateLeft 24 ^^^ (s.w0 ^^^ s.w1) ^^^ ((s.w0 ^^^ s.w1) <<< 16)
      w1 := (s.w0 ^^^ s.w1).rotateLeft 37 } := by
  rw [← rotl_eq_rotateLeft _ 24 (by decide), ← rotl_eq_rotateLeft _ 37 (by decide)]
  rfl

/-- The first word of the step: the rotation by 24 looks 40 places up, the shift by 16 looks 16 places down. -/
theorem bit_step128_w0 (s : Words2) {i : Nat} (hi : i < 64) :
    bit (step128 s).w0 i =
      ((bit s.w0 ((i + 40) % 64) != bit (s.w0 ^^^ s.w1) i) != (decide (16 ≤ i) && bit (s.w0 ^^^ s.w1) (i - 16))) := by
  have inside : (!decide (i < 16)) = decide (16 ≤ i) := by rw [← decide_not, decide_eq_decide, Nat.not_lt]
  have terms : (step128 s).w0 = rotl s.w0 24 ^^^ (s.w0 ^^^ s.w1) ^^^ ((s.w0 ^^^ s.w1) <<< 16) := rfl
  rw [terms, bit_xor, bit_xor, bit_rotl_at _ (by decide) (by decide) hi, bit_shiftLeft _ _ _ hi, inside]

theorem bit_step128_w1 (s : Words2) {i : Nat} (hi : i < 64) :
    bit (step128 s).w1 i = bit (s.w0 ^^^ s.w1) ((i + 27) % 64) :=
  bit_rotl_at _ (by decide) (by decide) hi

theorem step128_of_equal_words (v : Word) :
    step128 { w0 := v, w1 := v } = { w0 := v.rotateLeft 24, w1 := 0#64 } := by
  rw [step128_eq]
  simp

/-- Settles O25 (R47): the equations, the bits that each term brings, and the rule's corner cases. -/
theorem step128Bitwise : Obligations.Step128Bitwise := by
  exact ⟨fun s => wrapAdd_toNat s.w0 s.w1, step128_eq, fun s i hi => ⟨bit_step128_w0 s hi, bit_step128_w1 s hi⟩,
    step128_of_equal_words, by decide⟩

/-- The step undone: `x` from the second word, then the first word from `x`, then the second (R54). -/
def unstep128 (t : Words2) : Words2 :=
  let x := rotl t.w1 27
  let w0 := rotl (t.w0 ^^^ x ^^^ (x <<< 16)) 40
  { w0 := w0, w1 := w0 ^^^ x }

theorem unstep128_step128 (s : Words2) : unstep128 (step128 s) = s := by
  have x : rotl (step128 s).w1 27 = s.w0 ^^^ s.w1 := rotl_rotl _ (k := 37) (by decide) (by decide)
  have first : rotl (rotl s.w0 24) 40 = s.w0 := rotl_rotl _ (k := 24) (by decide) (by decide)
  rw [unstep128, x]
  ext1 <;> simp [step128, BitVec.xor_assoc, first]

theorem step128_unstep128 (t : Words2) : step128 (unstep128 t) = t := by
  have second : rotl (rotl t.w1 27) 37 = t.w1 := rotl_rotl _ (k := 27) (by decide) (by decide)
  have first (y : Word) : rotl (rotl y 40) 24 = y := rotl_rotl y (k := 40) (by decide) (by decide)
  ext1 <;> simp [step128, unstep128, first, second, BitVec.xor_assoc]

theorem step128_bijective : Function.Bijective step128 :=
  Function.bijective_iff_has_inverse.2 ⟨unstep128, unstep128_step128, step128_unstep128⟩

/-- Settles O30 (R54): the step distributes over exclusive-or and has an inverse; 1 + 1 carries where 1 ^^^ 1 does not. -/
theorem step128LinearBijection : Obligations.Step128LinearBijection := by
  have zero : ∀ p, step128 p = zero128 ↔ p = zero128 :=
    fun p => step128_bijective.injective.eq_iff' linear128.step_zero
  refine ⟨step128_xor, step128_bijective, zero, { w0 := 1#64, w1 := 0#64 }, { w0 := 0#64, w1 := 1#64 }, ?_⟩
  decide

/-- Bit position `b` of the polynomial is bit `b` of its two words side by side (D12). -/
theorem polyBit128_eq {b : Nat} (hb : b < 128) :
    polyBit128 b = (Config.jp128.w1 ++ Config.jp128.w0).getLsbD b := by
  rw [BitVec.getLsbD_append, polyBit128]
  rcases Nat.lt_or_ge b 64 with low | high
  · rw [Nat.div_eq_of_lt low, Nat.mod_eq_of_lt low, if_pos low]
    rfl
  · have word : b / 64 = 1 := by omega
    have place : b % 64 = b - 64 := by omega
    rw [word, place, if_neg (Nat.not_lt.2 high)]
    rfl

/-- One pass of the loop of R49: accumulator and running state, before and after position `b`. -/
def pass128 (p : Words2 × Words2) (b : Nat) : Words2 × Words2 := (accumulate128 b p.1 p.2, step128 p.2)

/-- The first `n` positions as a fold. -/
theorem foldl_pass128 (n : Nat) (s : Words2) :
    (List.range n).foldl pass128 (zero128, s) = (jumpLoop128 n 0 zero128 s, step128^[n] s) := by
  induction n with
  | zero => rfl
  | succ n ih =>
    rw [List.range_succ, List.foldl_concat, ih, pass128, jumpLoop128_succ, Nat.zero_add, Function.iterate_succ_apply']

/-- Settles O28 (R49): the fold of the model's own pass, the polynomial's bit read from the two words side by side. -/
theorem jumpFn128IsTheLoop : Obligations.JumpFn128IsTheLoop := by
  intro s
  have loop : jumpFn128 s = ((List.range 128).foldl pass128 (zero128, s)).1 := by rw [foldl_pass128, jumpFn128]
  refine loop.trans (congrArg Prod.fst (List.foldl_ext _ _ _ fun p b hb => ?_))
  rw [pass128, accumulate128, polyBit128_eq (List.mem_range.1 hb)]

/-- The accumulator after `n` positions is the sum of the iterates whose bit is set. -/
theorem jumpLoop128_eq_sum (n : Nat) (s : Words2) :
    jumpLoop128 n 0 zero128 s =
      (((List.range n).filter polyBit128).map fun b => step128^[b] s).foldl xor128 zero128 := by
  induction n with
  | zero => rfl
  | succ n ih =>
    rw [jumpLoop128_succ, ih, Nat.zero_add, accumulate128, List.range_succ, List.filter_append, List.map_append,
      List.foldl_append]
    cases h : polyBit128 n <;> simp [h]

theorem filter_polyBit128 :
    (List.range 128).filter polyBit128 =
      (List.range 128).filter fun b => (Config.jp128.w1 ++ Config.jp128.w0).getLsbD b :=
  List.filter_congr fun _ hb => polyBit128_eq (List.mem_range.1 hb)

/-- Settles O32 (R55): the sum is the loop's accumulator; linearity and commuting hold of every polynomial in the step; the
count and the two states from (1, 2) are evaluated. -/
theorem jumpFn128IsPolynomialInStep : Obligations.JumpFn128IsPolynomialInStep := by
  refine ⟨?sum, by decide +kernel, ?linear, ?commutes, by decide +kernel, by decide +kernel⟩
  case sum =>
    intro s
    rw [← filter_polyBit128]
    exact jumpLoop128_eq_sum 128 s
  case linear =>
    intro p q
    rw [jumpFn128_eval, jumpFn128_eval, jumpFn128_eval]
    exact linear128.eval_add 128 jumpPoly128 p q
  case commutes =>
    intro s
    rw [jumpFn128_eval, jumpFn128_eval]
    exact linear128.eval_step 128 jumpPoly128 s

end Sys2Proof.Machine
end

section
/-! The four commands of G128: what runs them, what they answer, what they leave as it was (R48, R50, R52, R53). -/

namespace Sys2Proof.Machine

open Sys2Proof.Safety

/-- A code that decodes to an instruction with any `wdata` runs it with any `wdata`. -/
theorem codeRuns_of_decode {cmd : Code} {c : Word → Instr} (h : ∀ w, decode { cmd := cmd, wdata := w } = .ok (c w)) :
    CodeRuns cmd c := by
  intro s w rest hs hp
  exact portStep_of_command hs hp (h w)

/-- Settles O14 (R48): the response and the stepped words, both in closed form over the old words. -/
theorem next128Result : Obligations.Next128Result := by
  refine ⟨codeRuns_of_decode fun _ => rfl, fun s => ?_⟩
  rw [← step128_eq, ← wrapAdd_eq_add]
  rfl

/-- Settles O15 (R50): the jump's finishing write and the record; the other generator's registers are not touched. -/
theorem jump128Result : Obligations.Jump128Result := by
  refine ⟨codeRuns_of_decode fun _ => rfl, fun s => ⟨afterJump128 s, exec_jump128 s, ?_⟩⟩
  simp [afterJump128]

/-- Settles O16 (R52): each index names its word. -/
theorem lds128Result : Obligations.Lds128Result := by
  exact ⟨codeRuns_of_decode fun _ => rfl, codeRuns_of_decode fun _ => rfl, fun _ _ => rfl, fun _ _ => rfl⟩

/-- Settles O17 (R53): each index names its word, and reading is no write. -/
theorem rds128Result : Obligations.Rds128Result := by
  exact ⟨codeRuns_of_decode fun _ => rfl, codeRuns_of_decode fun _ => rfl, fun _ => rfl, fun _ => rfl⟩

end Sys2Proof.Machine
end

section
/-! G256's jump as 2^128 steps, and the run of its engine at the port (R61, R66, R92). -/

namespace Sys2Proof.Machine

open Sys2Proof.Gf2 Sys2Proof.Safety

theorem stepPoly256_lt : stepPoly256 < 2 ^ (256 + 1) := by
  rw [pow_succ]
  decide

/-- Settles O35 (R66): the jump is the evaluation of its polynomial, that polynomial is `x` squared 128 times modulo the
polynomial which the step satisfies, and so it evaluates to the step applied 2^128 times. -/
theorem jump256Distance : Obligations.Jump256Distance := by
  intro s
  calc jumpFn256 s
      = linear256.eval 256 jumpPoly256 s := jumpFn256_eval s
    _ = linear256.eval 256 (squared stepPoly256 256 128) s := by rw [jumpPoly256_squared]
    _ = step256^[2 ^ 128] s := eval_squared linear256 stepPoly256_lt (by decide) (by decide) stepPoly256_zero 128 s

/-- Accepting a JUMP256 is the first micro-step; the rest of the run is the started engine's. -/
theorem runWith_microStep_of_jump256 {s : State} {c : Command} {rest : List Input} (hs : Idle s)
    (hp : s.port = .command c :: rest) (hd : decode c = .ok .jump256) (n : Nat) :
    runWith microStep (n + 1) s = runWith microStep n (start256 { s with port := rest }) := by
  have accepted : microStep s = .next (start256 { s with port := rest }) := portStep_of_command hs hp hd
  rw [runWith, accepted]

/-- `k` micro-steps after the start the engine of G256 stands at position `k`, whatever command waits behind the jump. -/
theorem runWith_start256 {s : State} (rests : s.busy128 = false) (waits : Waits s.port) {k : Nat} (hk : k < 256) :
    runWith microStep k (start256 s) = .next (atPosition256 s k) := by
  induction k with
  | zero => rfl
  | succ k ih =>
    have jumping : busy (atPosition256 s k) = true := Bool.or_true _
    have ticks : microStep (atPosition256 s k) = .next (tick (atPosition256 s k)) := microStep_of_waits waits jumping
    rw [runWith_add (ih (by omega)), runWith_one, ticks, tick_atPosition256 rests (by omega)]

/-- Settles O42 (R60, R61): one micro-step starts the engine, each further one is one position, and after 256 of them the
engine has caught up with the atomic command. -/
theorem jumpEngine256EqualsCommand : Obligations.JumpEngine256EqualsCommand := by
  intro s w rest hs hp commands
  have waits : Waits rest := waits_of_commands commands
  have started := runWith_microStep_of_jump256 hs hp rfl
  constructor
  · intro k hk
    rw [started]
    exact runWith_start256 (s := { s with port := rest }) hs.1 waits hk
  · rw [started, exec_jump256]
    exact (CatchesUp.jump256 (s := { s with port := rest }) hs).run waits

end Sys2Proof.Machine
end

section
/-! `STEP256` in closed form, its inverse, and `JUMPFN256` as a loop and as a sum of iterates (R57, R59, R64, R65). -/

namespace Sys2Proof.Machine

/-- `STEP256` in the library's rotation, the old words in index order (R57). -/
theorem step256_eq_rotateLeft (s : Words4) : step256 s =
    { w0 := s.w0 ^^^ s.w1 ^^^ s.w3
      w1 := s.w0 ^^^ s.w1 ^^^ s.w2
      w2 := s.w0 ^^^ s.w2 ^^^ (s.w1 <<< 17)
      w3 := (s.w1 ^^^ s.w3).rotateLeft 45 } := by
  rw [step256_eq, rotl_eq_rotateLeft _ 45 (by decide)]
  simp only [BitVec.xor_comm, xor_left]

/-- Settles O26 (R57): the wrapping sum, the closed form, and the states the rule names. -/
theorem step256ClosedForm : Obligations.Step256ClosedForm := by
  exact ⟨fun s => wrapAdd_toNat s.w0 s.w3, step256_eq_rotateLeft, by decide⟩

theorem xor_cancel_left (a b : Word) : a ^^^ (a ^^^ b) = b := by
  rw [← BitVec.xor_assoc, BitVec.xor_self, BitVec.zero_xor]

/-- A word exclusive-or its own left shift: word 1 goes into the new words 1 and 2 in this way. -/
def xorShift (k : Nat) (v : Word) : Word := v ^^^ (v <<< k)

theorem step256_w1_xor_w2 (s : Words4) : (step256 s).w1 ^^^ (step256 s).w2 = xorShift 17 s.w1 := by
  simp only [step256_eq, xorShift, BitVec.xor_assoc, xor_left s.w0, xor_cancel_left]

/-- Doing it twice doubles the distance, as the single shifts cancel. -/
theorem xorShift_xorShift (k : Nat) (v : Word) : xorShift k (xorShift k v) = xorShift (k + k) v := by
  simp only [xorShift, shiftLeft_xor, BitVec.shiftLeft_add, BitVec.xor_assoc, xor_cancel_left]

/-- Four times by 17 is once by 68, which shifts everything out. -/
theorem xorShift_four_times (v : Word) : xorShift 17 (xorShift 17 (xorShift 17 (xorShift 17 v))) = v := by
  have twice (u : Word) : xorShift 17 (xorShift 17 u) = xorShift 34 u := xorShift_xorShift 17 u
  have gone : v <<< 68 = 0#64 := BitVec.shiftLeft_eq_zero (by decide)
  rw [twice, twice, xorShift_xorShift, xorShift, gone, BitVec.xor_zero]

/-- The step undone: `x` (old words 1 and 3 combined) from word 3, word 0 from `x`, word 1 from words 1 and 2, then the rest
(R64). -/
def unstep256 (t : Words4) : Words4 :=
  let x := rotl t.w3 19
  let w0 := t.w0 ^^^ x
  let w1 := xorShift 17 (xorShift 17 (xorShift 17 (t.w1 ^^^ t.w2)))
  { w0 := w0, w1 := w1, w2 := t.w1 ^^^ w1 ^^^ w0, w3 := x ^^^ w1 }

theorem unstep256_step256 (s : Words4) : unstep256 (step256 s) = s := by
  have x : rotl (step256 s).w3 19 = s.w3 ^^^ s.w1 := rotl_rotl _ (k := 45) (by decide) (by decide)
  rw [unstep256, x, step256_w1_xor_w2, xorShift_four_times, step256_eq]
  ext1 <;> simp

theorem step256_unstep256 (t : Words4) : step256 (unstep256 t) = t := by
  have x : rotl (rotl t.w3 19) 45 = t.w3 := rotl_rotl _ (k := 19) (by decide) (by decide)
  have w1 : xorShift 17 (unstep256 t).w1 = t.w1 ^^^ t.w2 := xorShift_four_times _
  have w2 : (unstep256 t).w2 ^^^ (unstep256 t).w0 = t.w1 ^^^ (unstep256 t).w1 := by
    simp [unstep256, BitVec.xor_assoc]
  have w3 : (unstep256 t).w3 ^^^ (unstep256 t).w1 = rotl t.w3 19 := by simp [unstep256, BitVec.xor_assoc]
  have w0 : (unstep256 t).w0 ^^^ rotl t.w3 19 = t.w0 := by simp [unstep256, BitVec.xor_assoc]
  rw [step256_eq, w3, w2, w0, x, BitVec.xor_assoc, ← xorShift, w1, xor_cancel_left, xor_left, BitVec.xor_self,
    BitVec.xor_zero]

theorem step256_bijective : Function.Bijective step256 :=
  Function.bijective_iff_has_inverse.2 ⟨unstep256, unstep256_step256, step256_unstep256⟩

/-- Settles O31 (R64): the step distributes over exclusive-or and has an inverse; 1 + 1 carries where 1 ^^^ 1 does not. -/
theorem step256LinearBijection : Obligations.Step256LinearBijection := by
  have zero : ∀ p, step256 p = zero256 ↔ p = zero256 :=
    fun p => step256_bijective.injective.eq_iff' linear256.step_zero
  refine ⟨step256_xor, step256_bijective, zero, { zero256 with w0 := 1#64 }, { zero256 with w3 := 1#64 }, ?_⟩
  decide

/-- Bit position `b` of the polynomial is bit `b` of its four words side by side (D12). -/
theorem polyBit256_eq {b : Nat} (hb : b < 256) :
    polyBit256 b =
      (Config.jp256.w3 ++ Config.jp256.w2 ++ Config.jp256.w1 ++ Config.jp256.w0).getLsbD b := by
  rw [BitVec.getLsbD_append, BitVec.getLsbD_append, BitVec.getLsbD_append, polyBit256]
  split_ifs
  · rw [show b / 64 = 0 by omega, show b % 64 = b by omega]
    rfl
  · rw [show b / 64 = 1 by omega, show b % 64 = b - 64 by omega]
    rfl
  · rw [show b / 64 = 2 by omega, show b % 64 = b - 64 - 64 by omega]
    rfl
  · rw [show b / 64 = 3 by omega, show b % 64 = b - 64 - 64 - 64 by omega]
    rfl

/-- One pass of the loop of R59: accumulator and running state, before and after position `b`. -/
def pass256 (p : Words4 × Words4) (b : Nat) : Words4 × Words4 := (accumulate256 b p.1 p.2, step256 p.2)

/-- The loop over `n` positions from `b` is the fold of its pass over them. -/
theorem jumpLoop256_eq_foldl (n b : Nat) (a t : Words4) :
    jumpLoop256 n b a t = ((List.range' b n).foldl pass256 (a, t)).1 := by
  induction n generalizing b a t with
  | zero => rfl
  | succ n ih => exact ih (b + 1) _ _

/-- Settles O29 (R59): the fold of the model's own pass, the polynomial's bit read from the four words side by side. -/
theorem jumpFn256IsTheLoop : Obligations.JumpFn256IsTheLoop := by
  intro s
  rw [jumpFn256, jumpLoop256_eq_foldl, ← List.range_eq_range']
  refine congrArg Prod.fst (List.foldl_ext _ _ _ fun p b hb => ?_)
  rw [pass256, accumulate256, polyBit256_eq (List.mem_range.1 hb)]

/-- Stepping through `n` positions and accumulating where `f` holds leaves the sum of the iterates that `f` selects. -/
theorem foldl_accumulate_step {α : Type} (add : α → α → α) (step : α → α) (f : Nat → Bool) (n : Nat) (a s : α) :
    (List.range n).foldl (fun p b => (if f b then add p.1 p.2 else p.1, step p.2)) (a, s) =
      ((((List.range n).filter f).map fun b => step^[b] s).foldl add a, step^[n] s) := by
  induction n with
  | zero => rfl
  | succ n ih =>
    rw [List.range_succ, List.foldl_concat, ih, List.filter_append, List.map_append, List.foldl_append,
      Function.iterate_succ_apply']
    cases h : f n <;> simp [h]

/-- Settles O33 (R65): the sum is what the loop accumulates; linearity and commuting hold of every polynomial in the step;
the count and the two states from (1, 2, 3, 4) are evaluated. -/
theorem jumpFn256IsPolynomialInStep : Obligations.JumpFn256IsPolynomialInStep := by
  refine ⟨?sum, by decide +kernel, ?linear, ?commutes, by decide +kernel, by decide +kernel⟩
  case sum =>
    intro s
    rw [jumpFn256IsTheLoop]
    exact congrArg Prod.fst (foldl_accumulate_step xor256 step256 _ 256 zero256 s)
  case linear =>
    intro p q
    rw [jumpFn256_eval, jumpFn256_eval, jumpFn256_eval]
    exact linear256.eval_add 256 jumpPoly256 p q
  case commutes =>
    intro s
    rw [jumpFn256_eval, jumpFn256_eval]
    exact linear256.eval_step 256 jumpPoly256 s

end Sys2Proof.Machine
end

section
/-! The four commands of G256: what runs them, what they answer, what they leave as it was (R58, R60, R62, R63). -/

namespace Sys2Proof.Machine

open Sys2Proof.Safety

/-- Settles O18 (R58): the response and the stepped words, both in closed form over the old words. -/
theorem next256Result : Obligations.Next256Result := by
  refine ⟨codeRuns_of_decode fun _ => rfl, fun s => ⟨_, rfl, ?_⟩⟩
  rw [← step256_eq_rotateLeft, ← wrapAdd_eq_add]
  rfl

/-- Settles O19 (R60): the jump's finishing write and the record; the other generator's registers are not touched. -/
theorem jump256Result : Obligations.Jump256Result := by
  refine ⟨codeRuns_of_decode fun _ => rfl, fun s => ⟨afterJump256 s, exec_jump256 s, ?_⟩⟩
  simp [afterJump256]

/-- Settles O20 (R62): each index names its word. -/
theorem lds256Result : Obligations.Lds256Result := by
  refine ⟨?_, ?_, ?_, ?_, fun _ _ => rfl, fun _ _ => rfl, fun _ _ => rfl, fun _ _ => rfl⟩ <;>
    exact codeRuns_of_decode fun _ => rfl

/-- Settles O21 (R63): each index names its word, and reading is no write. -/
theorem rds256Result : Obligations.Rds256Result := by
  refine ⟨?_, ?_, ?_, ?_, fun _ => rfl, fun _ => rfl, fun _ => rfl, fun _ => rfl⟩ <;>
    exact codeRuns_of_decode fun _ => rfl

end Sys2Proof.Machine
end

section
/-! `UNITVAL` as a number: the top 53 bits of a word, and the fraction of 2^53 they are (R67). -/

namespace Sys2Proof.Machine

theorem topBits_eq_div (v : Word) : topBits v = v.toNat / 2 ^ 11 := by
  rw [topBits, BitVec.toNat_ushiftRight, Nat.shiftRight_eq_div_pow]

theorem topBits_lt (v : Word) : topBits v < 2 ^ 53 := by
  have := v.isLt
  rw [topBits_eq_div]
  omega

theorem topBits_eq_iff (v w : Word) : topBits v = topBits w ↔ v >>> 11 = w >>> 11 := BitVec.toNat_inj

theorem topBits_mono {v w : Word} (h : v.toNat ≤ w.toNat) : topBits v ≤ topBits w := by
  rw [topBits_eq_div, topBits_eq_div]
  exact Nat.div_le_div_right h

/-- The 2048 words that have the top bits `k` are `k` with any low part. -/
theorem topBits_ofNat {k low : Nat} (hk : k < 2 ^ 53) (hlow : low < 2048) :
    topBits (BitVec.ofNat 64 (k * 2048 + low)) = k := by
  rw [topBits_eq_div, BitVec.toNat_ofNat]
  omega

theorem unitVal_mono {v w : Word} (h : v.toNat ≤ w.toNat) : unitVal v ≤ unitVal w := by
  rw [unitVal, unitVal]
  gcongr
  exact topBits_mono h

theorem unitVal_nonneg (v : Word) : 0 ≤ unitVal v := by
  rw [unitVal]
  positivity

theorem unitVal_lt_one (v : Word) : unitVal v < 1 := by
  have small : (topBits v : ℚ) < 2 ^ 53 := mod_cast topBits_lt v
  rwa [unitVal, div_lt_one (by positivity)]

/-- Which words have a given value: those in one block of 2048. -/
theorem unitVal_eq_iff (v : Word) (k : Nat) :
    unitVal v = (k : ℚ) / 2 ^ 53 ↔ k * 2048 ≤ v.toNat ∧ v.toNat < (k + 1) * 2048 := by
  rw [unitVal, div_left_inj' (by positivity), Nat.cast_inj, topBits_eq_div]
  omega

/-- Settles O37 (R67): the value depends on the top bits alone, and its extreme values are the first, the second and the
last block of 2048 words. -/
theorem unitValueOfWord : Obligations.UnitValueOfWord := by
  refine ⟨?exact, ?bound, ?low, ?zero, ?least, ?greatest, ?half⟩
  case exact =>
    intro v
    rw [unitVal, topBits_eq_div]
    norm_num
  case bound =>
    intro v
    have := topBits_lt v
    rw [topBits_eq_div] at this
    omega
  case low =>
    intro v w h
    rw [unitVal, unitVal, (topBits_eq_iff v w).2 h]
  case zero =>
    intro v
    have first : (0 : ℚ) = ((0 : Nat) : ℚ) / 2 ^ 53 := by norm_num
    rw [first, unitVal_eq_iff]
    omega
  case least =>
    intro v
    have second : (1 / 2 ^ 53 : ℚ) = ((1 : Nat) : ℚ) / 2 ^ 53 := by norm_num
    rw [second, unitVal_eq_iff]
    omega
  case greatest =>
    intro v
    have last : (1 - 1 / 2 ^ 53 : ℚ) = ((2 ^ 53 - 1 : Nat) : ℚ) / 2 ^ 53 := by norm_num
    have := v.isLt
    rw [last, unitVal_eq_iff]
    omega
  case half =>
    have middle : (1 / 2 : ℚ) = ((2 ^ 52 : Nat) : ℚ) / 2 ^ 53 := by norm_num
    rw [middle, unitVal_eq_iff]
    decide

end Sys2Proof.Machine
end

section
/-! Binary64 patterns read as numbers: the fields of a pattern, and the pattern `F64BITS` builds for a `k` whose leading
one is bit `p` (R68). -/

namespace Sys2Proof.Machine

theorem f64Pattern_toNat (e : BitVec 11) (f : BitVec 52) :
    (f64Pattern 0#1 e f).toNat = e.toNat * 2 ^ 52 + f.toNat := by
  rw [f64Pattern, BitVec.toNat_append, ← Nat.shiftLeft_add_eq_or_of_lt f.isLt, Nat.shiftLeft_eq, BitVec.toNat_append]
  simp

theorem f64Exp_eq (w : Word) : f64Exp w = w.toNat / 2 ^ 52 % 2 ^ 11 := by
  rw [f64Exp, BitVec.extractLsb'_toNat, Nat.shiftRight_eq_div_pow]

theorem f64Frac_eq (w : Word) : f64Frac w = w.toNat % 2 ^ 52 := by
  rw [f64Frac, BitVec.extractLsb'_toNat, Nat.shiftRight_zero]

theorem sign_eq_false {w : Word} (h : w.toNat < 2 ^ 63) : w.getLsbD 63 = false := by
  rw [← BitVec.testBit_toNat]
  exact Nat.testBit_lt_two_pow h

/-- `k` fits the converter's 53 bits and its leading one is bit `p` (R68). -/
structure LeadingOne (k p : Nat) : Prop where
  fits : k < 2 ^ 53
  ge : 2 ^ p ≤ k
  lt : k < 2 ^ (p + 1)

theorem exists_leadingOne {k : Nat} (hk : k < 2 ^ 53) (h0 : k ≠ 0) : ∃ p, LeadingOne k p :=
  ⟨Nat.log2 k, hk, Nat.log2_self_le h0, Nat.lt_log2_self⟩

/-- `k` justified so that its leading one is bit 52: the significand. -/
def significand (k p : Nat) : Nat := k * 2 ^ (52 - p)

namespace LeadingOne

variable {k p l q : Nat}

theorem ne_zero (h : LeadingOne k p) : k ≠ 0 :=
  (Nat.lt_of_lt_of_le (Nat.two_pow_pos p) h.ge).ne'

theorem highBit_eq (h : LeadingOne k p) : highBit k = p := (Nat.log2_eq_iff h.ne_zero).2 ⟨h.ge, h.lt⟩

theorem pos_le (h : LeadingOne k p) : p ≤ 52 :=
  Nat.le_of_lt_succ ((Nat.pow_lt_pow_iff_right (by decide)).1 (Nat.lt_of_le_of_lt h.ge h.fits))

theorem pos_mono (hk : LeadingOne k p) (hl : LeadingOne l q) (le : k ≤ l) : p ≤ q :=
  Nat.le_of_lt_succ ((Nat.pow_lt_pow_iff_right (by decide)).1 (Nat.lt_of_le_of_lt (hk.ge.trans le) hl.lt))

/-- The leading one of `k`, moved to bit 52. -/
theorem two_pow_mul (h : LeadingOne k p) : 2 ^ p * 2 ^ (52 - p) = 2 ^ 52 := by
  rw [← Nat.pow_add, Nat.add_sub_cancel' h.pos_le]

theorem significand_ge (h : LeadingOne k p) : 2 ^ 52 ≤ significand k p := by
  rw [← h.two_pow_mul]
  exact Nat.mul_le_mul_right _ h.ge

theorem significand_lt (h : LeadingOne k p) : significand k p < 2 ^ 53 := by
  calc k * 2 ^ (52 - p) < 2 ^ (p + 1) * 2 ^ (52 - p) := Nat.mul_lt_mul_of_pos_right h.lt (Nat.two_pow_pos _)
    _ = 2 * (2 ^ p * 2 ^ (52 - p)) := by ring
    _ = 2 ^ 53 := by rw [h.two_pow_mul]; rfl

/-- The fraction field is the significand without its leading one. -/
theorem frac_eq (h : LeadingOne k p) : (k - 2 ^ p) * 2 ^ (52 - p) = significand k p - 2 ^ 52 := by
  rw [significand, Nat.sub_mul, h.two_pow_mul]

theorem f64Bits_toNat (h : LeadingOne k p) :
    (f64Bits k).toNat = (970 + p) * 2 ^ 52 + (significand k p - 2 ^ 52) := by
  have exp : (BitVec.ofNat 11 (970 + p)).toNat = 970 + p := by
    have := h.pos_le
    rw [BitVec.toNat_ofNat, Nat.mod_eq_of_lt (by omega)]
  have frac : (BitVec.ofNat 52 (k <<< (52 - p))).toNat = significand k p - 2 ^ 52 := by
    have := h.significand_ge
    have := h.significand_lt
    rw [BitVec.toNat_ofNat, Nat.shiftLeft_eq, ← significand]
    omega
  rw [f64Bits, if_neg h.ne_zero, h.highBit_eq, f64Pattern_toNat, exp, frac]

theorem f64Exp_f64Bits (h : LeadingOne k p) : f64Exp (f64Bits k) = 970 + p := by
  have := h.pos_le
  have := h.significand_lt
  rw [f64Exp_eq, h.f64Bits_toNat]
  omega

theorem f64Frac_f64Bits (h : LeadingOne k p) : f64Frac (f64Bits k) = significand k p - 2 ^ 52 := by
  have := h.significand_lt
  rw [f64Frac_eq, h.f64Bits_toNat]
  omega

theorem sign_f64Bits (h : LeadingOne k p) : (f64Bits k).getLsbD 63 = false := by
  have := h.pos_le
  have := h.significand_lt
  refine sign_eq_false ?_
  rw [h.f64Bits_toNat]
  omega

theorem f64Bits_ne_zero (h : LeadingOne k p) : f64Bits k ≠ 0#64 := by
  intro zero
  have pattern := h.f64Bits_toNat
  rw [zero, BitVec.toNat_ofNat] at pattern
  omega

/-- One plus the fraction is the significand over 2^52. -/
theorem one_add_frac (h : LeadingOne k p) :
    1 + (f64Frac (f64Bits k) : ℚ) / 2 ^ 52 = (significand k p : ℚ) / 2 ^ 52 := by
  rw [h.f64Frac_f64Bits, Nat.cast_sub h.significand_ge]
  push_cast
  ring

/-- Scaling the significand back by its exponent gives `k` over 2^53. -/
theorem scaled_significand (h : LeadingOne k p) :
    (2 : ℚ) ^ (((970 + p : Nat) : ℤ) - 1023) * ((significand k p : ℚ) / 2 ^ 52) = (k : ℚ) / 2 ^ 53 := by
  have scale : (2 : ℚ) ^ (((970 + p : Nat) : ℤ) - 1023) = 2 ^ p / 2 ^ 53 := by
    have exponent : ((970 + p : Nat) : ℤ) - 1023 = (p : ℤ) - (53 : Nat) := by omega
    rw [exponent, zpow_sub₀ two_ne_zero, zpow_natCast, zpow_natCast]
  have unit : (2 : ℚ) ^ p * 2 ^ (52 - p) = 2 ^ 52 := mod_cast h.two_pow_mul
  rw [scale, significand]
  push_cast
  calc (2 : ℚ) ^ p / 2 ^ 53 * ((k : ℚ) * 2 ^ (52 - p) / 2 ^ 52)
      = (k : ℚ) / 2 ^ 53 * (2 ^ p * 2 ^ (52 - p) / 2 ^ 52) := by ring
    _ = (k : ℚ) / 2 ^ 53 := by rw [unit, div_self (by positivity), mul_one]

theorem f64Value_f64Bits (h : LeadingOne k p) : f64Value (f64Bits k) = some ((k : ℚ) / 2 ^ 53) := by
  have exp := h.f64Exp_f64Bits
  have normal : 1 ≤ f64Exp (f64Bits k) ∧ f64Exp (f64Bits k) ≤ 2046 := by
    have := h.pos_le
    omega
  rw [f64Value, if_neg h.f64Bits_ne_zero, if_pos normal, h.sign_f64Bits, h.one_add_frac, exp, if_neg Bool.false_ne_true,
    one_mul, h.scaled_significand]

/-- Within one exponent the fractions are ordered as the numbers are; a larger exponent outweighs every fraction. -/
theorem f64Bits_mono (hk : LeadingOne k p) (hl : LeadingOne l q) (le : k ≤ l) :
    (f64Bits k).toNat ≤ (f64Bits l).toNat := by
  rw [hk.f64Bits_toNat, hl.f64Bits_toNat]
  rcases (hk.pos_mono hl le).eq_or_lt with rfl | lt
  · have : significand k p ≤ significand l p := Nat.mul_le_mul_right _ le
    omega
  · have := hk.significand_lt
    omega

/-- `k` can be read back: the significand, with the zeros of the justification shifted out (R72). -/
theorem readBack (h : LeadingOne k p) :
    k = (2 ^ 52 + f64Frac (f64Bits k)) / 2 ^ (1022 - f64Exp (f64Bits k)) := by
  rw [h.f64Exp_f64Bits, h.f64Frac_f64Bits, Nat.add_sub_cancel' h.significand_ge,
    show 1022 - (970 + p) = 52 - p by omega, significand, Nat.mul_div_cancel _ (Nat.two_pow_pos _)]

end LeadingOne

end Sys2Proof.Machine
end

section
/-! `F64BITS` of every `k` below 2^53, zero included, and TOFLOAT (R68 to R72). -/

namespace Sys2Proof.Machine

@[simp] theorem f64Bits_zero : f64Bits 0 = 0#64 := rfl

theorem f64Value_f64Bits {k : Nat} (hk : k < 2 ^ 53) : f64Value (f64Bits k) = some ((k : ℚ) / 2 ^ 53) := by
  rcases eq_or_ne k 0 with rfl | h0
  · simp [f64Value]
  · obtain ⟨p, leading⟩ := exists_leadingOne hk h0
    exact leading.f64Value_f64Bits

/-- A pattern denotes one value, so two numbers with one pattern are equal. -/
theorem f64Bits_inj {k l : Nat} (hk : k < 2 ^ 53) (hl : l < 2 ^ 53) : f64Bits k = f64Bits l ↔ k = l := by
  refine ⟨fun same => ?_, congrArg f64Bits⟩
  have values : some ((k : ℚ) / 2 ^ 53) = some ((l : ℚ) / 2 ^ 53) := by
    rw [← f64Value_f64Bits hk, ← f64Value_f64Bits hl, same]
  rwa [Option.some_inj, div_left_inj' (by positivity), Nat.cast_inj] at values

theorem f64Bits_mono {k l : Nat} (hl : l < 2 ^ 53) (le : k ≤ l) : (f64Bits k).toNat ≤ (f64Bits l).toNat := by
  rcases eq_or_ne k 0 with rfl | h0
  · simp
  · obtain ⟨p, leadingK⟩ := exists_leadingOne (Nat.lt_of_le_of_lt le hl) h0
    obtain ⟨q, leadingL⟩ := exists_leadingOne hl (by omega)
    exact leadingK.f64Bits_mono leadingL le

/-- Settles O38 (R68): the fields from the leading one, and the value they denote. -/
theorem floatBitsExact : Obligations.FloatBitsExact := by
  refine ⟨f64Bits_zero, fun k p fits ge lt => ?_, fun k hk => f64Value_f64Bits hk⟩
  have leading : LeadingOne k p := ⟨fits, ge, lt⟩
  rw [leading.frac_eq]
  exact ⟨leading.f64Bits_toNat, leading.f64Exp_f64Bits, leading.f64Frac_f64Bits, leading.sign_f64Bits⟩

/-- Settles O39 (R70): the leading one of 53 bits lies at 0 to 52, and the value is `UNITVAL`. -/
theorem floatRange : Obligations.FloatRange := by
  intro v
  have value : ∃ q, f64Value (f64Bits (topBits v)) = some q ∧ 0 ≤ q ∧ q < 1 ∧ q = unitVal v :=
    ⟨unitVal v, f64Value_f64Bits (topBits_lt v), unitVal_nonneg v, unitVal_lt_one v, rfl⟩
  rcases eq_or_ne (topBits v) 0 with h0 | h0
  · have zero : f64Bits (topBits v) = 0#64 := by rw [h0, f64Bits_zero]
    exact ⟨by simp [zero], .inl zero, value⟩
  · obtain ⟨p, leading⟩ := exists_leadingOne (topBits_lt v) h0
    have exp := leading.f64Exp_f64Bits
    have := leading.pos_le
    exact ⟨leading.sign_f64Bits, .inr ⟨by omega, by omega⟩, value⟩

/-- Settles O40 (R72): the pattern is injective and monotonic in the top bits, which the fields give back. -/
theorem floatConversionFibresAndOrder : Obligations.FloatConversionFibresAndOrder := by
  refine ⟨?fibres, fun k low => topBits_ofNat, fun v w => unitVal_mono, ?order, ?readBack⟩
  case fibres =>
    intro v w
    rw [f64Bits_inj (topBits_lt v) (topBits_lt w), topBits_eq_iff]
  case order => exact fun v w le => f64Bits_mono (topBits_lt w) (topBits_mono le)
  case readBack =>
    intro v exp
    have h0 : topBits v ≠ 0 := by
      intro zero
      rw [zero, f64Bits_zero] at exp
      exact absurd exp (by decide)
    obtain ⟨p, leading⟩ := exists_leadingOne (topBits_lt v) h0
    exact leading.readBack

/-- Settles O22 (R69): the converted top bits are the response, and no register is written. -/
theorem toFloatResult : Obligations.ToFloatResult :=
  ⟨codeRuns_of_decode fun _ => rfl, fun _ _ => rfl⟩

end Sys2Proof.Machine
end

section
/-! An idle CORE with nothing to take, and a CORE whose caller presents no reserved code (R73, R86, R92). -/

namespace Sys2Proof.Machine

open Sys2Proof.Safety

/-- Settles O10 (R86): an idle instance does nothing by itself, with or without an idle slot to take. -/
theorem idleInstanceHoldsState : Obligations.IdleInstanceHoldsState := by
  constructor
  · intro s quiet
    obtain ⟨idle, nothing⟩ := quiet
    exact step_of_nothing idle nothing
  · intro s rest idle slot
    exact step_of_idleSlot idle slot

/-- A step puts nothing at the port, a jump in progress or not. -/
theorem step_port_subset {s t : State} (h : step s = .next t) : t.port ⊆ s.port := by
  have lands {u : State} (e : step s = .next u) (hu : u.port ⊆ s.port) : t.port ⊆ s.port :=
    Host.Outcome.next.inj (e.symm.trans h) ▸ hu
  have ticked : (tick s).port ⊆ s.port := (tick_port s).1 ▸ List.Subset.refl _
  have taken {x : Input} {rest : List Input} (hp : s.port = x :: rest) : rest ⊆ s.port :=
    hp ▸ List.subset_cons_self x rest
  obtain ⟨-, e⟩ | ⟨rest, hp, e⟩ | ⟨rest, hp, e⟩ | ⟨_, _, -, -, e⟩ | ⟨_, rest, _, hp, -, -, e⟩ |
    ⟨_, _, _, -, -, -, e⟩ := portStep_cases exec s
  · exact lands e ticked
  · exact lands e (taken hp)
  · exact lands e ((tick_port { s with port := rest }).1 ▸ taken hp)
  · exact lands e ticked
  · have port : t.port = rest := exec_port (e.symm.trans h)
    exact port ▸ taken hp
  · exact nomatch e.symm.trans h

/-- Only a reserved code at the head of the port stops a step. -/
theorem step_answers_of_legal {s : State} (legal : ∀ x ∈ s.port, legalInput x = true) : ∃ t, step s = .next t := by
  obtain answers | ⟨c, rest, why, hp, -, reserved, -⟩ := step_next_or_reserved s
  · exact answers
  · have legalHead : legalCode c = true := legal (.command c) (by simp [hp])
    obtain ⟨i, hd⟩ := decode_of_legalCode legalHead
    exact nomatch hd.symm.trans reserved

/-- Settles O48 (R73, R92): by induction on the number of steps, since the inputs left after a step are among those
before it. -/
theorem legalInputsNeverStop : Obligations.LegalInputsNeverStop := by
  intro s n legal
  induction n generalizing s with
  | zero => exact ⟨s, rfl⟩
  | succ n ih =>
    obtain ⟨t, ht⟩ := step_answers_of_legal legal
    obtain ⟨u, hu⟩ := ih t fun x hx => legal x (step_port_subset ht hx)
    refine ⟨u, ?_⟩
    rw [runWith, ht]
    exact hu

end Sys2Proof.Machine
end

section
/-! The two generators do not interfere (R36, R84). A command that is not a generator's own runs the same whatever that
generator's registers hold: exchanging them before it or after it is one and the same. That such a command leaves them as
they are, and that it does not see them, both follow. -/

namespace Sys2Proof.Machine

/-- `s` with the registers of G128, the hidden ones included, as `r` has them (R11, R17). -/
def withG128Of (r s : State) : State :=
  { s with s128 := r.s128, acc128 := r.acc128, jc128 := r.jc128, busy128 := r.busy128 }

/-- `s` with the registers of G256, the hidden ones included, as `r` has them (R12, R17). -/
def withG256Of (r s : State) : State :=
  { s with s256 := r.s256, acc256 := r.acc256, jc256 := r.jc256, busy256 := r.busy256 }

theorem withG128Of_self (s : State) : withG128Of s s = s := rfl

theorem withG256Of_self (s : State) : withG256Of s s = s := rfl

theorem afterJump256_withG128Of (r s : State) : afterJump256 (withG128Of r s) = withG128Of r (afterJump256 s) := by
  simp only [afterJump256, withG128Of, complete]

theorem afterJump128_withG256Of (r s : State) : afterJump128 (withG256Of r s) = withG256Of r (afterJump128 s) := by
  simp only [afterJump128, withG256Of, complete]

theorem exec_withG128Of {i : Instr} {s t : State} (other : i.unit ≠ .g128) (h : exec i s = .next t) (r : State) :
    exec i (withG128Of r s) = .next (withG128Of r t) := by
  cases i with
  | next128 | jump128 | lds128 | rds128 => exact absurd rfl other
  | jump256 =>
    obtain rfl := Host.Outcome.next.inj ((exec_jump256 s).symm.trans h)
    rw [exec_jump256, afterJump256_withG128Of]
  | next256 | lds256 | rds256 | toFloat =>
    obtain rfl := Host.Outcome.next.inj h
    rfl

theorem exec_withG256Of {i : Instr} {s t : State} (other : i.unit ≠ .g256) (h : exec i s = .next t) (r : State) :
    exec i (withG256Of r s) = .next (withG256Of r t) := by
  cases i with
  | next256 | jump256 | lds256 | rds256 => exact absurd rfl other
  | jump128 =>
    obtain rfl := Host.Outcome.next.inj ((exec_jump128 s).symm.trans h)
    rw [exec_jump128, afterJump128_withG256Of]
  | next128 | lds128 | rds128 | toFloat =>
    obtain rfl := Host.Outcome.next.inj h
    rfl

/-- The exchange of G128's registers for themselves. -/
theorem exec_keeps_g128 {i : Instr} {s t : State} (other : i.unit ≠ .g128) (h : exec i s = .next t) :
    t.s128 = s.s128 ∧ t.acc128 = s.acc128 ∧ t.jc128 = s.jc128 ∧ t.busy128 = s.busy128 := by
  have exchanged : exec i s = .next (withG128Of s t) := withG128Of_self s ▸ exec_withG128Of other h s
  have kept : t = withG128Of s t := Host.Outcome.next.inj (h.symm.trans exchanged)
  rw [kept]
  exact ⟨rfl, rfl, rfl, rfl⟩

/-- The exchange of G256's registers for themselves. -/
theorem exec_keeps_g256 {i : Instr} {s t : State} (other : i.unit ≠ .g256) (h : exec i s = .next t) :
    t.s256 = s.s256 ∧ t.acc256 = s.acc256 ∧ t.jc256 = s.jc256 ∧ t.busy256 = s.busy256 := by
  have exchanged : exec i s = .next (withG256Of s t) := withG256Of_self s ▸ exec_withG256Of other h s
  have kept : t = withG256Of s t := Host.Outcome.next.inj (h.symm.trans exchanged)
  rw [kept]
  exact ⟨rfl, rfl, rfl, rfl⟩

/-- Settles O49 (R84): each command leaves the registers of a generator that is not its unit, and RDS is none of the
commands that write the words it reads. -/
theorem crossWidthIndependence : Obligations.CrossWidthIndependence := by
  intro i s
  obtain ⟨t, -, he, -⟩ := exec_answers i s
  refine ⟨t, he, fun other => exec_keeps_g256 other he, fun other => exec_keeps_g128 other he, ?rds128, ?rds256⟩
  case rds128 =>
    rintro k rfl
    exact exec_keeps_s128 (by simp) (by simp) (by simp) he
  case rds256 =>
    rintro k rfl
    exact exec_keeps_s256 (by simp) (by simp) (by simp) he

/-- G256's own commands leave `S128` alone in both runs; the other commands run alike in both. -/
theorem exec_blind_to_s256 (i : Instr) (s : State) (x : Words4) :
    ∃ t u, exec i s = .next t ∧ exec i { s with s256 := x } = .next u ∧
      u.s128 = t.s128 ∧ (i.unit ≠ .g256 → u.responses = t.responses) := by
  obtain ⟨t, -, ht, -⟩ := exec_answers i s
  by_cases own : i.unit = .g256
  · have other : i.unit ≠ .g128 := by simp [own]
    obtain ⟨u, -, hu, -⟩ := exec_answers i { s with s256 := x }
    obtain ⟨keptT, -⟩ := exec_keeps_g128 other ht
    obtain ⟨keptU, -⟩ := exec_keeps_g128 other hu
    exact ⟨t, u, ht, hu, keptU.trans keptT.symm, fun notOwn => absurd own notOwn⟩
  · exact ⟨t, _, ht, exec_withG256Of own ht { s with s256 := x }, rfl, fun _ => rfl⟩

/-- G128's own commands leave `S256` alone in both runs; the other commands run alike in both. -/
theorem exec_blind_to_s128 (i : Instr) (s : State) (x : Words2) :
    ∃ t u, exec i s = .next t ∧ exec i { s with s128 := x } = .next u ∧
      u.s256 = t.s256 ∧ (i.unit ≠ .g128 → u.responses = t.responses) := by
  obtain ⟨t, -, ht, -⟩ := exec_answers i s
  by_cases own : i.unit = .g128
  · have other : i.unit ≠ .g256 := by simp [own]
    obtain ⟨u, -, hu, -⟩ := exec_answers i { s with s128 := x }
    obtain ⟨keptT, -⟩ := exec_keeps_g256 other ht
    obtain ⟨keptU, -⟩ := exec_keeps_g256 other hu
    exact ⟨t, u, ht, hu, keptU.trans keptT.symm, fun notOwn => absurd own notOwn⟩
  · exact ⟨t, _, ht, exec_withG128Of own ht { s with s128 := x }, rfl, fun _ => rfl⟩

/-- Settles O50 (R36, R84): each half is the blindness to one generator's words. -/
theorem responsesBlindToOtherGenerator : Obligations.ResponsesBlindToOtherGenerator :=
  ⟨exec_blind_to_s256, exec_blind_to_s128⟩

end Sys2Proof.Machine
end

section
/-! The all-zero words of a generator (R90). The step is a bijection that maps zero to itself, and a jump is a number of
steps, so neither enters or leaves zero; a load of that generator is the only other command that writes its words. -/

namespace Sys2Proof.Machine

theorem iterate_step128_eq_zero_iff (n : Nat) (p : Words2) : step128^[n] p = zero128 ↔ p = zero128 :=
  (step128_bijective.injective.iterate n).eq_iff' (Function.iterate_fixed linear128.step_zero n)

theorem iterate_step256_eq_zero_iff (n : Nat) (p : Words4) : step256^[n] p = zero256 ↔ p = zero256 :=
  (step256_bijective.injective.iterate n).eq_iff' (Function.iterate_fixed linear256.step_zero n)

theorem jumpFn128_eq_zero_iff (p : Words2) : jumpFn128 p = zero128 ↔ p = zero128 := by
  rw [jump128Distance p, iterate_step128_eq_zero_iff]

theorem jumpFn256_eq_zero_iff (p : Words4) : jumpFn256 p = zero256 ↔ p = zero256 := by
  rw [jump256Distance p, iterate_step256_eq_zero_iff]

theorem afterJump128_s128 (s : State) : (afterJump128 s).s128 = jumpFn128 s.s128 := by
  rw [afterJump128, complete_s128]

/-- NEXT128 steps the words, JUMP128 jumps them, and no other command but a load writes them. -/
theorem exec_s128_eq_zero_iff {i : Instr} {s t : State} (load : ∀ k v, i ≠ .lds128 k v) (h : exec i s = .next t) :
    t.s128 = zero128 ↔ s.s128 = zero128 := by
  by_cases next : i = .next128
  · subst next
    rw [advances128.state s t h]
    exact iterate_step128_eq_zero_iff 1 s.s128
  by_cases jump : i = .jump128
  · subst jump
    obtain rfl := Host.Outcome.next.inj ((exec_jump128 s).symm.trans h)
    rw [afterJump128_s128, jumpFn128_eq_zero_iff]
  rw [exec_keeps_s128 next jump load h]

theorem afterJump256_s256 (s : State) : (afterJump256 s).s256 = jumpFn256 s.s256 := by
  rw [afterJump256, complete_s256]

/-- NEXT256 steps the words, JUMP256 jumps them, and no other command but a load writes them. -/
theorem exec_s256_eq_zero_iff {i : Instr} {s t : State} (load : ∀ k v, i ≠ .lds256 k v) (h : exec i s = .next t) :
    t.s256 = zero256 ↔ s.s256 = zero256 := by
  by_cases next : i = .next256
  · subst next
    rw [advances256.state s t h]
    exact iterate_step256_eq_zero_iff 1 s.s256
  by_cases jump : i = .jump256
  · subst jump
    obtain rfl := Host.Outcome.next.inj ((exec_jump256 s).symm.trans h)
    rw [afterJump256_s256, jumpFn256_eq_zero_iff]
  rw [exec_keeps_s256 next jump load h]

/-- Settles O36 (R90): no command but a load enters or leaves zero, and the output of all-zero words is 0 + 0. -/
theorem zeroStateKeptByEveryCommandButLoads : Obligations.ZeroStateKeptByEveryCommandButLoads := by
  refine ⟨?g128, ?g256, ?next128, ?next256⟩
  case g128 =>
    intro i s load
    obtain ⟨t, -, ht, -⟩ := exec_answers i s
    exact ⟨t, ht, exec_s128_eq_zero_iff load ht⟩
  case g256 =>
    intro i s load
    obtain ⟨t, -, ht, -⟩ := exec_answers i s
    exact ⟨t, ht, exec_s256_eq_zero_iff load ht⟩
  case next128 =>
    intro s zero
    obtain ⟨t, -, ht, -⟩ := exec_answers .next128 s
    have output : out128 s.s128 = 0#64 := by rw [zero]; decide
    exact ⟨t, ht, output ▸ advances128.response s t ht⟩
  case next256 =>
    intro s zero
    obtain ⟨t, -, ht, -⟩ := exec_answers .next256 s
    have output : out256 s.s256 = 0#64 := by rw [zero]; decide
    exact ⟨t, ht, output ▸ advances256.response s t ht⟩

end Sys2Proof.Machine
end

section
/-! Reset from outside, in either machine and at any moment, and the first command after it (R18, R87, R88, R92, R95). -/

namespace Sys2Proof.Machine

open Sys2Proof.Safety

/-- The port does not ask whether a jump is in progress before it resets, nor what an accepted command would do. -/
theorem portStep_of_reset (run : Instr → State → Host.Outcome State Fault Refusal) {s : State} {rest : List Input}
    (hp : s.port = .reset :: rest) :
    ∃ t, portStep run s = .next t ∧ Idle t ∧ t.ci = 0 ∧ t.responses = [] ∧ t.port = rest := by
  have acts : portStep run s = .next (resetEvent { s with port := rest }) := by simp [portStep, hp]
  exact ⟨_, acts, ⟨resetEvent_busy128 _, resetEvent_busy256 _⟩, resetEvent_ci _, resetEvent_responses _, resetEvent_port _⟩

/-- Settles O12 (R18, R87, R95): the port's reset, in the atomic machine. -/
theorem resetEventAtAnyTime : Obligations.ResetEventAtAnyTime :=
  fun _ _ hp => portStep_of_reset exec hp

/-- Settles O44 (R18, R87, R92, R95): the port's reset, in the machine of micro-steps. -/
theorem resetAbandonsJump : Obligations.ResetAbandonsJump :=
  fun _ _ hp => portStep_of_reset launch hp

/-- Settles O13 (R88): nothing else waits at the port of the reset state, so taking the command off it leaves that
state. -/
theorem firstCommandAfterReset : Obligations.FirstCommandAfterReset := by
  have idle : Idle State.reset := ⟨reset_busy128, reset_busy256⟩
  refine ⟨idle, reset_ci, reset_port, reset_responses, fun c i hd => ?_⟩
  have presented : (present State.reset (.command c)).port = [.command c] := by simp
  exact portStep_of_command idle presented hd

end Sys2Proof.Machine
end

section
/-! A command that waits behind a jump (R51, R61, R92): what one micro-step of an engine does before the last bit position
and at it, and that the port takes the command as soon as the instance is idle. -/

namespace Sys2Proof.Machine

open Sys2Proof.Safety

theorem tick_of_busy128 {s : State} (jumping : s.busy128 = true) : tick s = micro128 s := by
  simp [tick, jumping]

theorem tick_of_busy256 {s : State} (rests : s.busy128 = false) (jumping : s.busy256 = true) : tick s = micro256 s := by
  simp [tick, rests, jumping]

/-- A micro-step of G128 before the last bit position. -/
theorem micro128_onward {s : State} (goesOn : s.jc128 ≠ 127#7) :
    micro128 s = { s with
      acc128 := accumulate128 s.jc128.toNat s.acc128 s.s128, s128 := step128 s.s128, jc128 := s.jc128 + 1#7 } := by
  have position : s.jc128.toNat ≠ 127 := fun h => goesOn (BitVec.eq_of_toNat_eq h)
  simp [micro128, position, BitVec.ofNat_add]

/-- The micro-step of G128 at the last bit position completes the jump. -/
theorem micro128_last {s : State} (last : s.jc128 = 127#7) :
    micro128 s = complete none { s with
      acc128 := accumulate128 127 s.acc128 s.s128, s128 := accumulate128 127 s.acc128 s.s128, busy128 := false } := by
  simp [micro128, last]

/-- A micro-step of G256 before the last bit position. -/
theorem micro256_onward {s : State} (goesOn : s.jc256 ≠ 255#8) :
    micro256 s = { s with
      acc256 := accumulate256 s.jc256.toNat s.acc256 s.s256, s256 := step256 s.s256, jc256 := s.jc256 + 1#8 } := by
  have position : s.jc256.toNat ≠ 255 := fun h => goesOn (BitVec.eq_of_toNat_eq h)
  simp [micro256, position, BitVec.ofNat_add]

/-- The micro-step of G256 at the last bit position completes the jump. -/
theorem micro256_last {s : State} (last : s.jc256 = 255#8) :
    micro256 s = complete none { s with
      acc256 := accumulate256 255 s.acc256 s.s256, s256 := accumulate256 255 s.acc256 s.s256, busy256 := false } := by
  simp [micro256, last]

theorem microStep_of_accepted {s : State} {c : Command} {rest : List Input} (hs : Idle s)
    (hp : s.port = .command c :: rest) : microStep s = accept launch c { s with port := rest } := by
  simp [microStep, portStep, hp, busy, hs.1, hs.2]

/-- Settles O11 (R51, R61, R92): a busy instance ticks, one engine rests and the other makes a micro-step; the last one
leaves the instance idle with the command still at the head of its port. -/
theorem busyInstanceAcceptsNoCommand : Obligations.BusyInstanceAcceptsNoCommand := by
  constructor
  · intro s c rest ⟨_, engines⟩ jumping hp
    have rests : s.busy256 = false := by simpa [jumping] using engines
    have ticks : microStep s = .next (micro128 s) :=
      tick_of_busy128 jumping ▸ microStep_of_waits (.inr ⟨c, rest, hp⟩) (by simp [busy, jumping])
    refine ⟨micro128 s, ticks, ?_⟩
    by_cases last : s.jc128 = 127#7
    · rw [micro128_last last]
      exact ⟨rfl, rfl, rfl, rests, absurd last, fun _ => ⟨rfl, rfl, rfl, rfl, microStep_of_accepted ⟨rfl, rests⟩ hp⟩⟩
    · rw [micro128_onward last]
      exact ⟨rfl, rfl, rfl, rests, fun _ => ⟨jumping, rfl, rfl, rfl, rfl⟩, fun h => absurd h last⟩
  · intro s c rest ⟨_, engines⟩ jumping hp
    have rests : s.busy128 = false := by simpa [jumping] using engines
    have ticks : microStep s = .next (micro256 s) :=
      tick_of_busy256 rests jumping ▸ microStep_of_waits (.inr ⟨c, rest, hp⟩) (by simp [busy, jumping])
    refine ⟨micro256 s, ticks, ?_⟩
    by_cases last : s.jc256 = 255#8
    · rw [micro256_last last]
      exact ⟨rfl, rfl, rfl, rests, absurd last, fun _ => ⟨rfl, rfl, rfl, rfl, microStep_of_accepted ⟨rests, rfl⟩ hp⟩⟩
    · rw [micro256_onward last]
      exact ⟨rfl, rfl, rfl, rests, fun _ => ⟨jumping, rfl, rfl, rfl, rfl⟩, fun h => absurd h last⟩

end Sys2Proof.Machine
end

section
/-! An instruction that a caller places by a table word (log 9, log 11). The word decodes as its command does, the placed
command stands at the head of an idle instance's port, and taking it leaves the port that was there before. -/

namespace Sys2Proof.Machine

open Sys2Proof.Safety

theorem decodeTableWord_eq_some {nbits w : Nat} {i : Instr} :
    decodeTableWord nbits w = some i ↔ decode (commandOfBits nbits w) = .ok i := by
  unfold decodeTableWord
  cases decode (commandOfBits nbits w) <;> simp

theorem idle_withCommand (s : State) (c : Command) : Idle (withCommand s c) :=
  ⟨withCommand_busy128 s c, withCommand_busy256 s c⟩

/-- With the placed command taken off the port, only the end of the jump in progress is left of the placement. -/
theorem withCommand_taken (s : State) (c : Command) :
    { withCommand s c with port := s.port } = { s with busy128 := false, busy256 := false } := rfl

/-- Settles O8 (R31, log 9, log 11): an idle instance runs the command at the head of its port, here the placed one. -/
theorem fetchWordRunsNext : Obligations.FetchWordRunsNext := by
  intro s nbits w i decodes
  have runs := stepRunsDecodedCommand (s.withFetchWord nbits w) (commandOfBits nbits w) s.port i
    (idle_withCommand s _) (withCommand_port s _) (decodeTableWord_eq_some.mp decodes)
  exact runs.trans (congrArg (exec i) (withCommand_taken s _))

end Sys2Proof.Machine
end
